-- ==== Sys2Proof/Word.lean ====
section
/-! DEFINITION. The widths of the block's values (00_scope.md R7, R9, R13; 30_encoding.md R73). -/

namespace Sys2Proof

/-- An 8-bit value: a register cell, an image byte, a header code (R7). -/
abbrev Byte := BitVec 8

/-- A 16-bit value: `pc`, `sp`, a pair view, a two-byte header field (R7). -/
abbrev Word := BitVec 16

/-- A 40-bit command word (R73). -/
abbrev Command := BitVec 40

/-- A string: a finite sequence of bytes with no terminator (R13). -/
abbrev Text := List Byte

end Sys2Proof
end

