-- ==== Sys2Proof/Syntax.lean ====
section
/-! DEFINITION. The commands of the block, one constructor per row of spec/opcode_table.json (30_encoding.md R74 to R76), the
ports, and what the world outside may present in one step (00_scope.md R12; 70_reset_and_hazards.md R223). -/

namespace Sys2Proof

/-- The four command ports (R12). -/
inductive Port where
  | rp0 | rp1 | wp | dp
  deriving DecidableEq, Repr

/-- A command with its operands (R75, R76). A selector keeps all its 4 bits, since a word with an out-of-range selector is
an admitted command that fails when performed (R78). Every operand has the exact width its word gives it, so every term can
be encoded. -/
inductive Instr where
  | reset
  | getpair (p : BitVec 4)
  | setpair (p : BitVec 4) (v : Word)
  | getflag (k : BitVec 4)
  | setflag (k : BitVec 4) (b : BitVec 1)
  | getr8 (r : BitVec 4)
  | setr8 (r : BitVec 4) (v : Byte)
  | getr16 (x : BitVec 4)
  | setr16 (x : BitVec 4) (v : Word)
  | decode
  | vendor (legacyCode eraFlag : Byte) (modernCode : Word)
  | cartname (code : Byte)
  | romsize (code : Byte)
  | ramsize (code : Byte)
  | imgrd (addr : BitVec 24)
  deriving DecidableEq, Repr

/-- The eight 8-bit cells, in the order of their selectors (R20, R78). -/
inductive Reg8 where
  | a | b | c | d | e | f | h | l
  deriving DecidableEq, Repr

/-- The two 16-bit cells, in the order of their selectors (R21, R78). -/
inductive Reg16 where
  | pc | sp
  deriving DecidableEq, Repr

/-- The four pair views, in the order of their selectors (R22, R78). -/
inductive Pair where
  | af | bc | de | hl
  deriving DecidableEq, Repr

/-- The four flags, in the order of their selectors (R23, R78). -/
inductive Flag where
  | zero | subtract | halfCarry | carry
  deriving DecidableEq, Repr

/-- One host load: the bytes of a source that could be read, or a source that could not (20_memory.md R57). -/
inductive HostLoad where
  | load (bytes : List Byte)
  | loadFail
  deriving DecidableEq, Repr

/-- What a consumer outside the block may read: a line of the record bus (10_state.md R33; 41_lookup_tables.md R137 to R140),
or a byte of the image (20_memory.md R65; log 11). -/
inductive Probe where
  | imgValid | imgLen | hdrValid
  | entryPoint | logo | title | modernVendorCode | sgbFlag | cartType | romSizeCode | ramSizeCode
  | destinationCode | legacyVendorCode | version | headerChecksum | globalChecksum
  | vendorView | cartView | romView | ramView | titleView
  | imageByte (addr : Nat)
  deriving DecidableEq, Repr

/-- All that the world outside presents in one step (R223): at most one command word on each port, at most one host load, and
the lines a consumer reads. -/
structure StepInput where
  rp0 : Option Command := none
  rp1 : Option Command := none
  wp : Option Command := none
  dp : Option Command := none
  host : Option HostLoad := none
  probes : List Probe := []
  deriving DecidableEq, Repr

/-- A step in which nothing is presented: every port is idle (R12). -/
def StepInput.idle : StepInput := {}

end Sys2Proof
end

