-- ==== Sys2Proof/WellFormed.lean ====
section
/-! DEFINITION. Which terms of the syntax the block takes: a command at a port of its class (30_encoding.md R74, R79 (c)), and a
step without both a host load and a decoder command (20_memory.md R58; 70_reset_and_hazards.md R228). A command alone needs no
check: its operands have the widths of its word. The written commands of R83 have their own checks in Machine/Assembler.lean. -/

namespace Sys2Proof

/-- The ports of a command's class (R74). -/
def Instr.ports : Instr → List Port
  | .getpair _ | .getflag _ | .getr8 _ | .getr16 _ => [.rp0, .rp1]
  | .reset | .setpair _ _ | .setflag _ _ | .setr8 _ _ | .setr16 _ _ => [.wp]
  | .decode | .vendor _ _ _ | .cartname _ | .romsize _ | .ramsize _ | .imgrd _ => [.dp]

/-- The command may be performed at this port (R79 (c)). -/
def Instr.wellFormedAt (p : Port) (i : Instr) : Bool := i.ports.contains p

/-- The step is a step of the block: no host load shares it with a decoder command (R58, R228). -/
def StepInput.wellFormed (i : StepInput) : Bool := !(i.host.isSome && i.dp.isSome)

end Sys2Proof
end

