-- ==== Sys2Proof/Decode.lean ====
section
/-! DEFINITION. The command word (30_encoding.md R73 to R81): its fields, the opcode table, the decoder that rejects by name, the
admission of a word at a port, and the encoder. -/

namespace Sys2Proof

/-- The five fields of a command word (R73). -/
structure Fields where
  op : BitVec 4
  sel : BitVec 4
  opa : Byte
  opb : Byte
  opd : Word
  deriving DecidableEq, Repr

/-- OP is `w[39:36]`, SEL `w[35:32]`, OPA `w[31:24]`, OPB `w[23:16]`, OPD `w[15:0]` (R73). -/
def Fields.ofWord (w : Command) : Fields :=
  { op := w.extractLsb' 36 4, sel := w.extractLsb' 32 4, opa := w.extractLsb' 24 8, opb := w.extractLsb' 16 8,
    opd := w.extractLsb' 0 16 }

/-- The word whose fields these are (R73). -/
def Fields.toWord (x : Fields) : Command := x.op ++ x.sel ++ x.opa ++ x.opb ++ x.opd

/-- One row of the opcode table (R75) with the assembly of its operands (R76). -/
structure Row where
  mnemonic : String
  pattern : Command
  mask : Command
  assemble : Fields → Instr

/-- A word selects a row when `(w & mask) == match` (R75). -/
def Row.selects (r : Row) (w : Command) : Bool := w &&& r.mask == r.pattern

/-- The register-file rows (R75, R76). -/
def registerRows : List Row :=
  [ { mnemonic := "RESET", pattern := 0x1000000000, mask := 0xFFFFFFFFFF, assemble := fun _ => .reset },
    { mnemonic := "GETPAIR", pattern := 0x2000000000, mask := 0xF0FFFFFFFF, assemble := fun x => .getpair x.sel },
    { mnemonic := "SETPAIR", pattern := 0x3000000000, mask := 0xF0FFFF0000, assemble := fun x => .setpair x.sel x.opd },
    { mnemonic := "GETFLAG", pattern := 0x4000000000, mask := 0xF0FFFFFFFF, assemble := fun x => .getflag x.sel },
    { mnemonic := "SETFLAG", pattern := 0x5000000000, mask := 0xF0FFFFFFFE,
      assemble := fun x => .setflag x.sel (x.opd.extractLsb' 0 1) },
    { mnemonic := "GETR8", pattern := 0x6000000000, mask := 0xF0FFFFFFFF, assemble := fun x => .getr8 x.sel },
    { mnemonic := "SETR8", pattern := 0x7000000000, mask := 0xF0FFFFFF00,
      assemble := fun x => .setr8 x.sel (x.opd.extractLsb' 0 8) },
    { mnemonic := "GETR16", pattern := 0x8000000000, mask := 0xF0FFFFFFFF, assemble := fun x => .getr16 x.sel },
    { mnemonic := "SETR16", pattern := 0x9000000000, mask := 0xF0FFFF0000, assemble := fun x => .setr16 x.sel x.opd } ]

/-- The header-decoder rows (R75, R76). -/
def decoderRows : List Row :=
  [ { mnemonic := "DECODE", pattern := 0xA000000000, mask := 0xFFFFFFFFFF, assemble := fun _ => .decode },
    { mnemonic := "VENDOR", pattern := 0xB000000000, mask := 0xFF00000000, assemble := fun x => .vendor x.opa x.opb x.opd },
    { mnemonic := "CARTNAME", pattern := 0xC000000000, mask := 0xFF00FFFFFF, assemble := fun x => .cartname x.opa },
    { mnemonic := "ROMSIZE", pattern := 0xD000000000, mask := 0xFF00FFFFFF, assemble := fun x => .romsize x.opa },
    { mnemonic := "RAMSIZE", pattern := 0xE000000000, mask := 0xFF00FFFFFF, assemble := fun x => .ramsize x.opa },
    { mnemonic := "IMGRD", pattern := 0xF000000000, mask := 0xFF00FF0000, assemble := fun x => .imgrd (x.opa ++ x.opd) } ]

/-- The opcode table (R75). -/
def rows : List Row := registerRows ++ decoderRows

/-- Why a word is illegal (R79 (a), (b), (c)). All three answer the status IllegalCommand; the names are the model's (log 13). -/
inductive Illegal where
  | reservedOpcode
  | mustBeZero
  | wrongPort
  deriving DecidableEq, Repr

/-- The decoder, total on 40-bit words: the command of the row that the word selects, or the reason why there is none
(R79 (a), (b)). -/
def decode (w : Command) : Except Illegal Instr :=
  match rows.find? (fun r => r.selects w) with
  | some r => .ok (r.assemble (Fields.ofWord w))
  | none => if (Fields.ofWord w).op = 0 then .error .reservedOpcode else .error .mustBeZero

/-- Admission of a word at a port (R79): a row must select it, and the port must be of the row's class. -/
def admission (p : Port) (w : Command) : Except Illegal Instr :=
  match decode w with
  | .error why => .error why
  | .ok i => if i.wellFormedAt p then .ok i else .error .wrongPort

/-- The fields of a command, every bit that is no operand zero (R75, R76). -/
def Instr.fields : Instr → Fields
  | .reset => { op := 0x1, sel := 0, opa := 0, opb := 0, opd := 0 }
  | .getpair p => { op := 0x2, sel := p, opa := 0, opb := 0, opd := 0 }
  | .setpair p v => { op := 0x3, sel := p, opa := 0, opb := 0, opd := v }
  | .getflag k => { op := 0x4, sel := k, opa := 0, opb := 0, opd := 0 }
  | .setflag k b => { op := 0x5, sel := k, opa := 0, opb := 0, opd := (0 : BitVec 15) ++ b }
  | .getr8 r => { op := 0x6, sel := r, opa := 0, opb := 0, opd := 0 }
  | .setr8 r v => { op := 0x7, sel := r, opa := 0, opb := 0, opd := (0 : BitVec 8) ++ v }
  | .getr16 x => { op := 0x8, sel := x, opa := 0, opb := 0, opd := 0 }
  | .setr16 x v => { op := 0x9, sel := x, opa := 0, opb := 0, opd := v }
  | .decode => { op := 0xA, sel := 0, opa := 0, opb := 0, opd := 0 }
  | .vendor legacyCode eraFlag modernCode => { op := 0xB, sel := 0, opa := legacyCode, opb := eraFlag, opd := modernCode }
  | .cartname code => { op := 0xC, sel := 0, opa := code, opb := 0, opd := 0 }
  | .romsize code => { op := 0xD, sel := 0, opa := code, opb := 0, opd := 0 }
  | .ramsize code => { op := 0xE, sel := 0, opa := code, opb := 0, opd := 0 }
  | .imgrd addr => { op := 0xF, sel := 0, opa := addr.extractLsb' 16 8, opb := 0, opd := addr.extractLsb' 0 16 }

/-- The encoder: the one word of a command (R81). -/
def encode (i : Instr) : Command := i.fields.toWord

/-- The command the decoder reads from a word of the opcode table's numbering, its bits above `nbits` zero; a number that is
no 40-bit word is no command (R73). -/
def decodeTableWord (nbits w : Nat) : Option Instr :=
  if w % 2 ^ nbits < 2 ^ 40 then
    match decode (BitVec.ofNat 40 (w % 2 ^ nbits)) with
    | .ok i => some i
    | .error _ => none
  else none

end Sys2Proof
end

