-- ==== Sys2Proof/Machine/State.lean ====
section
/-! DEFINITION. The state of the block (10_state.md), its status codes and responses (30_encoding.md R82; 60_exceptions.md
R201), and its two start states. -/

namespace Sys2Proof.Machine

open Sys2Proof

/-- Why the machine stops. None of these is a status code of the spec: an error the spec names is a response, and the machine
goes on (R200, R217). -/
inductive Fault where
  /-- Raised by GETPAIR, GETFLAG, GETR8 and GETR16 on a cell that nothing has written since power-on: reading it "is a model
  fault, not a read of zero" (R14, R37). Safe. It cannot be met from State.reset. -/
  | cellHoldsNoValue
  /-- Raised by a consumer's read of an image byte that holds no value (R28, I13), and by IMGRD in a state, which no run reaches,
  whose image lacks a byte below IMG_LEN. Safe. -/
  | imageByteHoldsNoValue (addr : Nat)
  /-- Raised by DECODE in a state, which no run reaches, whose image lacks a byte of the header window although IMG_LEN says that
  it is there (R28, R100). Safe. -/
  | headerByteHoldsNoValue
  /-- Raised by a consumer's read of a record field or derived view while HDR_VALID = 0 (R30, R33, I14). Safe. -/
  | recordHoldsNoValue
  /-- Raised by a step that presents both a host load and a DP command: "it is not a step of the block" (R228, I18). The spec
  makes this the host's duty, and claims about hosts that break it must not be drawn: unsafe for those (log 5). -/
  | hostLoadWithDecoderCommand
  deriving DecidableEq, Repr

/-- Why the machine has no meaning for an instruction. -/
inductive Refusal where
  /-- Raised by exec's arm of an instruction that has no meaning yet; no arm of this model does. Safe. -/
  | notModelled (mnemonic : String)
  deriving DecidableEq, Repr

/-- The status of a response (R201). -/
inductive Status where
  | ok | invalidSelector | outOfBounds | ioError | illegalCommand
  deriving DecidableEq, Repr

/-- A response, every line a port may drive (R82): `unit` is 0 for KiB and 1 for MiB. RP0 and RP1 drive `status` and `data`,
WP `status`, DP all of them. -/
structure Response where
  status : Status
  data : Word := 0
  valid : BitVec 1 := 0
  unit : BitVec 1 := 0
  found : BitVec 1 := 0
  name : Text := []
  deriving DecidableEq, Repr

/-- What a read port drives (R82). -/
structure ReadResponse where
  status : Status
  data : Word
  deriving DecidableEq, Repr

/-- The header-record latch HDR (R29). Byte sequences are listed from the lowest image address. -/
structure HeaderRecord where
  entryPoint : List Byte
  logo : List Byte
  title : List Byte
  modernVendorCode : Word
  sgbFlag : Byte
  cartType : Byte
  romSizeCode : Byte
  ramSizeCode : Byte
  destinationCode : Byte
  legacyVendorCode : Byte
  version : Byte
  headerChecksum : Byte
  globalChecksum : Word
  deriving DecidableEq, Repr

/-- The unit of a ROM size (R130). -/
inductive SizeUnit where
  | kib | mib
  deriving DecidableEq, Repr

/-- A ROM size: absent when not valid, else a number in its unit (R130). -/
structure RomSize where
  valid : Bool
  num : Nat
  unit : SizeUnit
  deriving DecidableEq, Repr

/-- A RAM size: absent when not valid, else a number of KiB, or −1 for the undocumented code (R133). -/
structure RamSize where
  valid : Bool
  kib : Int
  deriving DecidableEq, Repr

/-- The value a consumer reads (R33, R137 to R140). The RAM view is read in both of its forms, as the signed number of R133 and as
the 16-bit word of R134 (log 16). -/
inductive ProbeValue where
  | bit (b : Bool)
  | count (n : Nat)
  | byte (v : Byte)
  | word (v : Word)
  | bytes (v : List Byte)
  | named (found : Bool) (name : Text)
  | rom (size : RomSize) (text : Text)
  | ram (size : RamSize) (data : Word)
  deriving DecidableEq, Repr

/-- Which cells hold a value (R14, R37): a cell nothing has written since power-on holds none. SETFLAG writes one bit of `f`,
so `f` has one bit of this for each of its bits. -/
structure Held where
  a : Bool
  b : Bool
  c : Bool
  d : Bool
  e : Bool
  f : BitVec 8
  h : Bool
  l : Bool
  pc : Bool
  sp : Bool
  deriving DecidableEq, Repr

/-- Every cell holds a value. -/
def Held.all : Held :=
  { a := true, b := true, c := true, d := true, e := true, f := 0xFF, h := true, l := true, pc := true, sp := true }

/-- No cell holds a value. -/
def Held.none : Held :=
  { a := false, b := false, c := false, d := false, e := false, f := 0x00, h := false, l := false, pc := false, sp := false }

/-- The register-file unit: eight 8-bit cells, two 16-bit cells (R20, R21), and which of them hold a value (R37). The bits of a
cell that holds no value stand at 0 and are never read (log 2). -/
structure RegFile where
  a : Byte
  b : Byte
  c : Byte
  d : Byte
  e : Byte
  f : Byte
  h : Byte
  l : Byte
  pc : Word
  sp : Word
  held : Held
  deriving DecidableEq, Repr

/-- The header decoder unit (R28 to R31). The image is a list of address and byte pairs, addresses strictly rising; an address
that is not listed holds no value (log 15). `hdr` is none while its fields hold no value (R30). -/
structure HeaderUnit where
  img : List Host.Cell
  imgLen : Nat
  imgValid : Bool
  hdr : Option HeaderRecord
  hdrValid : Bool
  deriving DecidableEq, Repr

/-- What the world outside was answered in a step: each port's response, the host status, and the values a consumer read
(R82, R205, R33). An idle port gives no response. -/
structure StepOutput where
  rp0 : Option ReadResponse := none
  rp1 : Option ReadResponse := none
  wp : Option Status := none
  dp : Option Response := none
  host : Option Status := none
  probes : List ProbeValue := []
  deriving DecidableEq, Repr

/-- The whole machine. `rfu` and `hdu` are the block's state (R35); `driver`, `answer` and `out` are the model's own: the steps
yet to be presented (log 3), the response of the command being performed and the answers of the last step (log 4). -/
structure State where
  rfu : RegFile
  hdu : HeaderUnit
  driver : List StepInput
  answer : Option Response
  out : StepOutput
  deriving DecidableEq, Repr

/-- The register file after RESET (R36, R150). -/
def RegFile.afterReset : RegFile :=
  { a := 0x01, b := 0x00, c := 0x00, d := 0x00, e := 0x00, f := 0x00, h := 0x00, l := 0x00, pc := 0x0100, sp := 0x0000,
    held := Held.all }

/-- The register file at power-on: no cell holds a value (R37, R220). -/
def RegFile.powerOn : RegFile :=
  { a := 0, b := 0, c := 0, d := 0, e := 0, f := 0, h := 0, l := 0, pc := 0, sp := 0, held := Held.none }

/-- The header decoder unit at power-on: nothing loaded, nothing decoded (R38, R220). -/
def HeaderUnit.powerOn : HeaderUnit :=
  { img := [], imgLen := 0, imgValid := false, hdr := none, hdrValid := false }

/-- The machine at power-on (R220), before any RESET. -/
def State.powerOn : State :=
  { rfu := RegFile.powerOn, hdu := HeaderUnit.powerOn, driver := [], answer := none, out := {} }

/-- The machine right after reset: power-on, then the RESET command (R36, R38, R221; log 1). -/
def State.reset : State :=
  { rfu := RegFile.afterReset, hdu := HeaderUnit.powerOn, driver := [], answer := none, out := {} }

/-- Put a response in `answer`. -/
def State.withAnswer (s : State) (r : Option Response) : State := { s with answer := r }

/-- Replace the register-file unit. -/
def State.withRfu (s : State) (r : RegFile) : State := { s with rfu := r }

/-- Replace the header decoder unit. -/
def State.withHdu (s : State) (u : HeaderUnit) : State := { s with hdu := u }

/-- Replace the steps yet to be presented. -/
def State.withDriver (s : State) (d : List StepInput) : State := { s with driver := d }

/-- Replace the answers of the last step. -/
def State.withOut (s : State) (o : StepOutput) : State := { s with out := o }

end Sys2Proof.Machine
end

