-- ==== Sys2Proof/Machine/Flags.lean ====
section
/-! DEFINITION. The four named flags, bits 7..4 of `f` (10_state.md R23, R24; 42_register_file.md R153, R154). No command of the
block computes a flag: they are only read and written by name (R25). -/

namespace Sys2Proof.Machine

open Sys2Proof

/-- The ordinal of a flag, in the order zero, subtract, half-carry, carry (R23). -/
def flagOrdinal : Flag → Nat
  | .zero => 0
  | .subtract => 1
  | .halfCarry => 2
  | .carry => 3

/-- The bit of `f` at which a flag stands: 7 less its ordinal (R23). -/
def flagBit (k : Flag) : Nat := 7 - flagOrdinal k

/-- The 8-bit mask of a flag, `1 << (7 - k)` (R154). -/
def flagMask (k : Flag) : Byte := (1 : Byte) <<< flagBit k

/-- The flag's value in `f` (R153). -/
def flagOf (f : Byte) (k : Flag) : BitVec 1 := f.extractLsb' (flagBit k) 1

/-- `f` with one flag written, every other bit kept (R154). -/
def withFlag (f : Byte) (k : Flag) (b : BitVec 1) : Byte :=
  (f &&& ~~~flagMask k) ||| (if b = 1 then flagMask k else 0x00)

end Sys2Proof.Machine
end

