-- ==== Sys2Proof/Machine/Operands.lean ====
section
/-! DEFINITION. Selectors and the parts of operands (30_encoding.md R76, R78; 10_state.md R22). -/

namespace Sys2Proof.Machine

open Sys2Proof

/-- `v[15:8]` (R22). -/
def hiByte (v : Word) : Byte := v.extractLsb' 8 8

/-- `v[7:0]` (R22). -/
def loByte (v : Word) : Byte := v.extractLsb' 0 8

/-- The pair a selector names; 4 to 15 name none (R78). -/
def pairOf (p : BitVec 4) : Option Pair :=
  match p.toNat with
  | 0 => some .af
  | 1 => some .bc
  | 2 => some .de
  | 3 => some .hl
  | _ => none

/-- The flag a selector names; 4 to 15 name none (R78). -/
def flagNamed (k : BitVec 4) : Option Flag :=
  match k.toNat with
  | 0 => some .zero
  | 1 => some .subtract
  | 2 => some .halfCarry
  | 3 => some .carry
  | _ => none

/-- The 8-bit cell a selector names; 8 to 15 name none (R78). -/
def reg8Of (r : BitVec 4) : Option Reg8 :=
  match r.toNat with
  | 0 => some .a
  | 1 => some .b
  | 2 => some .c
  | 3 => some .d
  | 4 => some .e
  | 5 => some .f
  | 6 => some .h
  | 7 => some .l
  | _ => none

/-- The 16-bit cell a selector names; 2 to 15 name none (R78). -/
def reg16Of (x : BitVec 4) : Option Reg16 :=
  match x.toNat with
  | 0 => some .pc
  | 1 => some .sp
  | _ => none

/-- The cell of a pair's high byte (R22). -/
def pairHigh : Pair → Reg8
  | .af => .a
  | .bc => .b
  | .de => .d
  | .hl => .h

/-- The cell of a pair's low byte (R22). -/
def pairLow : Pair → Reg8
  | .af => .f
  | .bc => .c
  | .de => .e
  | .hl => .l

end Sys2Proof.Machine
end

