-- ==== Sys2Proof/Config.lean ====
section
/-! DEFINITION. What the spec leaves OPEN (00_scope.md R8), as constants without a body: nothing in Lean can evaluate one or
prove a value of one, so a theorem of this model holds whatever they are. What the spec pins about them (bounds, fixed entries)
is laid over these constants in Machine/Tables.lean. -/

namespace Sys2Proof.Config

/-- The raw capacity of the image store, before the bounds of R8 (log 7). -/
opaque imgMaxRaw : Nat

/-- The raw longest name, before the bound of R8 (log 8). -/
opaque nameMaxRaw : Nat

/-- The raw legacy vendor table, before the pinned entry of R125 (log 9). -/
opaque legacyVendorsRaw : Byte → Option Text

/-- The raw modern vendor table by first and second character, before the pinned entry of R125 (log 9). -/
opaque modernVendorsRaw : Byte → Byte → Option Text

/-- The raw cartridge-type table; no entry is pinned (R8, log 9). -/
opaque cartTypesRaw : Byte → Option Text

/-- Names, before exclusions, a legacy code that has no entry (R125: at least one has none; log 9). -/
opaque unmappedLegacyRaw : Byte

/-- `raw_vendor(HDR)`: the two characters of the modern code, or the legacy code (41_lookup_tables.md R142). -/
inductive RawVendor where
  | modern (first second : Byte)
  | legacy (code : Byte)
  deriving DecidableEq, Repr

/-- The ordered presentation tuple of a record (41_lookup_tables.md R141). -/
structure Presentation where
  title : Text
  version : Byte
  vendorName : Text
  rawVendor : RawVendor
  cartName : Text
  cartType : Byte
  romSize : Text
  deriving DecidableEq, Repr

/-- `RENDER`, the total deterministic function from the presentation tuple to text, OPEN (R141, log 10). -/
opaque render : Presentation → Text

end Sys2Proof.Config
end

