-- ==== Sys2Proof/Machine/Tables.lean ====
section
/-! DEFINITION. The OPEN parameters with what the spec pins about them (00_scope.md R8; 41_lookup_tables.md R125): bounds, fixed
entries, name lengths. Strings are their ASCII bytes (R13; log 14). -/

namespace Sys2Proof.Machine

open Sys2Proof

/-- The end of the header window, one past 0x14F (R100): the least length that DECODE accepts. -/
def headerEnd : Nat := 0x150

/-- `IMG_MAX`, with 0x150 <= IMG_MAX <= 2^24 (R8; log 7). -/
def imgMax : Nat := max 0x150 (min Config.imgMaxRaw (2 ^ 24))

/-- `NAME_MAX`, at least 14 (R8; log 8). -/
def nameMax : Nat := max 14 Config.nameMaxRaw

/-- "Nintendo". -/
def nintendo : Text := [0x4E, 0x69, 0x6E, 0x74, 0x65, 0x6E, 0x64, 0x6F]

/-- "THQ". -/
def thq : Text := [0x54, 0x48, 0x51]

/-- The sentinel "Unknown Vendor", 14 bytes (R123). -/
def unknownVendor : Text := [0x55, 0x6E, 0x6B, 0x6E, 0x6F, 0x77, 0x6E, 0x20, 0x56, 0x65, 0x6E, 0x64, 0x6F, 0x72]

/-- A legacy code that has no entry; it is neither the pinned 0x01 nor 0x33 (R125, V13; log 9). -/
def unmappedLegacy : Byte :=
  if Config.unmappedLegacyRaw = 0x01 ∨ Config.unmappedLegacyRaw = 0x33 then 0x00 else Config.unmappedLegacyRaw

/-- `LEGACY_VENDORS` (R125): 0x01 is "Nintendo", some code has no entry, a name is at most NAME_MAX bytes. -/
def legacyVendors (code : Byte) : Option Text :=
  if code = 0x01 then some nintendo
  else if code = unmappedLegacy then none
  else (Config.legacyVendorsRaw code).map (List.take nameMax)

/-- `MODERN_VENDORS` by the two characters of the key (R122, R125): "78" is "THQ". -/
def modernVendors (first second : Byte) : Option Text :=
  if first = 0x37 ∧ second = 0x38 then some thq
  else (Config.modernVendorsRaw first second).map (List.take nameMax)

/-- `CART_TYPES` (R8, R126): no entry is pinned. -/
def cartTypes (code : Byte) : Option Text := (Config.cartTypesRaw code).map (List.take nameMax)

end Sys2Proof.Machine
end

