-- ==== Sys2Proof/Machine/Ops.lean ====
section
/-! DEFINITION. The shared operations: responding and raising an error, the register cells, the image store and the host load. -/

namespace Sys2Proof.Machine

open Sys2Proof

/-- The outcome of one command or one step. -/
abbrev Result := Host.Outcome State Fault Refusal

/-- Go on with what a first part answered, or stop as it stopped. -/
def andThen {α β : Type} (o : Host.Outcome α Fault Refusal) (k : α → Host.Outcome β Fault Refusal) :
    Host.Outcome β Fault Refusal :=
  match o with
  | .next x => k x
  | .fault e => .fault e
  | .refused r => .refused r

/-- Use a value, or stop with a fault where there is none. -/
def orFault {α β : Type} (v : Option α) (e : Fault) (k : α → Host.Outcome β Fault Refusal) : Host.Outcome β Fault Refusal :=
  match v with
  | some x => k x
  | none => .fault e

/-! ## Responding and raising an error (30_encoding.md R82; 60_exceptions.md R200) -/

/-- End the command with this response. -/
def respond (r : Response) (s : State) : State := s.withAnswer (some r)

/-- A response with a status and nothing else: every other field 0 and the name empty (R82). -/
def statusOnly (e : Status) : Response := { status := e }

/-- `raise E`: the block's whole reaction to an error. It answers the status, writes no state, saves nothing, changes no mode
and transfers control nowhere (R200, R207); there is no return from it (R208). -/
def raise (e : Status) (s : State) : Result := .next (respond (statusOnly e) s)

/-- The 3-bit code of a status (R201). -/
def statusCode : Status → BitVec 3
  | .ok => 0
  | .invalidSelector => 1
  | .outOfBounds => 2
  | .ioError => 3
  | .illegalCommand => 4

/-! ## The register cells (10_state.md R20 to R22, R37; 42_register_file.md R159, R160) -/

/-- Whether an 8-bit cell holds a value, all its bits (R37). -/
def holds8 (x : RegFile) : Reg8 → Bool
  | .a => x.held.a
  | .b => x.held.b
  | .c => x.held.c
  | .d => x.held.d
  | .e => x.held.e
  | .f => x.held.f = 0xFF
  | .h => x.held.h
  | .l => x.held.l

/-- Whether a 16-bit cell holds a value (R37). -/
def holds16 (x : RegFile) : Reg16 → Bool
  | .pc => x.held.pc
  | .sp => x.held.sp

/-- The stored bits of an 8-bit cell; a value only where the cell holds one. -/
def bits8 (x : RegFile) : Reg8 → Byte
  | .a => x.a
  | .b => x.b
  | .c => x.c
  | .d => x.d
  | .e => x.e
  | .f => x.f
  | .h => x.h
  | .l => x.l

/-- The stored bits of a 16-bit cell; a value only where the cell holds one. -/
def bits16 (x : RegFile) : Reg16 → Word
  | .pc => x.pc
  | .sp => x.sp

/-- `R8[r]`, or none where the cell holds no value (R11, R14). -/
def read8 (x : RegFile) (r : Reg8) : Option Byte := if holds8 x r then some (bits8 x r) else none

/-- `PC` or `SP`, or none where the cell holds no value (R11, R14). -/
def read16 (x : RegFile) (r : Reg16) : Option Word := if holds16 x r then some (bits16 x r) else none

/-- `R8[r] <- v`: the cell then holds v (R11, R37). -/
def write8 (x : RegFile) (r : Reg8) (v : Byte) : RegFile :=
  match r with
  | .a => { x with a := v, held := { x.held with a := true } }
  | .b => { x with b := v, held := { x.held with b := true } }
  | .c => { x with c := v, held := { x.held with c := true } }
  | .d => { x with d := v, held := { x.held with d := true } }
  | .e => { x with e := v, held := { x.held with e := true } }
  | .f => { x with f := v, held := { x.held with f := 0xFF } }
  | .h => { x with h := v, held := { x.held with h := true } }
  | .l => { x with l := v, held := { x.held with l := true } }

/-- `PC <- v` or `SP <- v` (R11). -/
def write16 (x : RegFile) (r : Reg16) (v : Word) : RegFile :=
  match r with
  | .pc => { x with pc := v, held := { x.held with pc := true } }
  | .sp => { x with sp := v, held := { x.held with sp := true } }

/-- A pair view: the high cell before the low cell, or none where either holds no value (R22). -/
def readPair (x : RegFile) (p : Pair) : Option Word :=
  match read8 x (pairHigh p), read8 x (pairLow p) with
  | some hi, some lo => some (hi ++ lo)
  | _, _ => none

/-- A write of a pair view (R22). -/
def writePair (x : RegFile) (p : Pair) (v : Word) : RegFile :=
  write8 (write8 x (pairHigh p) (hiByte v)) (pairLow p) (loByte v)

/-- A named flag, or none where its bit of `f` holds no value (R23, R37). -/
def readFlag (x : RegFile) (k : Flag) : Option (BitVec 1) := if flagOf x.held.f k = 1 then some (flagOf x.f k) else none

/-- A write of a named flag through the bit-level write enable of `f` (R160): only that bit then holds a new value (R37). -/
def writeFlag (x : RegFile) (k : Flag) (b : BitVec 1) : RegFile :=
  { x with f := withFlag x.f k b, held := { x.held with f := withFlag x.held.f k 1 } }

/-! ## The image store (10_state.md R28; 20_memory.md R50, R54, R57) -/

/-- What an address reads as that the image does not list: no value (R28). -/
def Memory.unlisted : Option Byte := none

/-- `IMG[k]`, one byte. -/
def Memory.read : List Host.Cell → Nat → Option Byte
  | [], _ => Memory.unlisted
  | (a, b) :: m, k => if a = k then some b else Memory.read m k

/-- `IMG[k] <- v`, in order of address. -/
def Memory.write : List Host.Cell → Nat → Byte → List Host.Cell
  | [], k, v => [(k, v)]
  | (a, b) :: m, k, v =>
    if k < a then (k, v) :: (a, b) :: m
    else if k = a then (k, v) :: m
    else (a, b) :: Memory.write m k v

/-- `IMG[k] <- v` for each address listed. -/
def Memory.fill (m : List Host.Cell) (ks : List Nat) (v : Byte) : List Host.Cell := ks.foldl (fun m k => Memory.write m k v) m

/-- Bytes laid out from an address on (R57). -/
def Memory.ofBytes : Nat → List Byte → List Host.Cell
  | _, [] => []
  | k, b :: bs => (k, b) :: Memory.ofBytes (k + 1) bs

/-- The n bytes from an address on, or none where one of them holds no value (R52). -/
def Memory.bytes (m : List Host.Cell) (k : Nat) : Nat → Option (List Byte)
  | 0 => some []
  | n + 1 =>
    match Memory.read m k, Memory.bytes m (k + 1) n with
    | some b, some bs => some (b :: bs)
    | _, _ => none

/-- `MemRead(k, 2)`: the byte at the lower address is the most significant (R50). -/
def Memory.word (m : List Host.Cell) (k : Nat) : Option Word :=
  match Memory.read m k, Memory.read m (k + 1) with
  | some hi, some lo => some (hi ++ lo)
  | _, _ => none

/-- The canonical form: addresses strictly rising. (No entry can equal what an unlisted address reads as: that is no value.) -/
def Memory.wf : List Host.Cell → Bool
  | [] => true
  | [_] => true
  | (a, _) :: (b, v) :: m => a < b && Memory.wf ((b, v) :: m)

/-- The effect of a host load on the unit, and the status it reports to the host (R57, R205). A load ends the old record
whatever its outcome (R30). -/
def hostLoad (l : HostLoad) : HeaderUnit × Status :=
  match l with
  | .load bytes =>
    if bytes.length ≤ imgMax then
      ({ img := Memory.ofBytes 0 bytes, imgLen := bytes.length, imgValid := true, hdr := none, hdrValid := false }, .ok)
    else ({ img := [], imgLen := 0, imgValid := false, hdr := none, hdrValid := false }, .ioError)
  | .loadFail => ({ img := [], imgLen := 0, imgValid := false, hdr := none, hdrValid := false }, .ioError)

end Sys2Proof.Machine
end

