-- ==== Sys2Proof/Machine/HeaderDecoder.lean ====
section
/-! DEFINITION. The decoder-port commands that touch the image store (40_header_decoder.md). Each reads and writes `hdu` alone. -/

namespace Sys2Proof.Machine

open Sys2Proof

/-- The era sentinel: with it the modern vendor code is used (R7, R120). -/
def eraSentinel : Byte := 0x33

/-- The image address of the title's first byte (R70, R71). -/
def titleBase : Nat := 0x134

/-- The header window read as it stands (30_encoding.md R70, R72; R101), or none where one of its bytes holds no value. -/
def rawHeader (m : List Host.Cell) : Option HeaderRecord := do
  return {
    entryPoint := ← Memory.bytes m 0x100 4
    logo := ← Memory.bytes m 0x104 48
    title := ← Memory.bytes m titleBase 16
    modernVendorCode := ← Memory.word m 0x144
    sgbFlag := ← Memory.read m 0x146
    cartType := ← Memory.read m 0x147
    romSizeCode := ← Memory.read m 0x148
    ramSizeCode := ← Memory.read m 0x149
    destinationCode := ← Memory.read m 0x14A
    legacyVendorCode := ← Memory.read m 0x14B
    version := ← Memory.read m 0x14C
    headerChecksum := ← Memory.read m 0x14D
    globalChecksum := ← Memory.word m 0x14E }

/-- The title's indices that DECODE sets to NUL, in the order of R102: 11 to 14 in the modern era, and 15 always. -/
def titleNuls (era : Byte) : List Nat := if era = eraSentinel then [11, 12, 13, 14, 15] else [15]

/-- The title normalised (R102). -/
def normaliseTitle (era : Byte) (t : List Byte) : List Byte := (titleNuls era).foldl (fun t i => t.set i 0x00) t

/-- The image addresses that DECODE writes back, all with NUL (R103). -/
def titleWriteBack (era : Byte) : List Nat := (titleNuls era).map (titleBase + ·)

/-- The record DECODE latches from the window as it stands (R101). -/
def latched (raw : HeaderRecord) : HeaderRecord := { raw with title := normaliseTitle raw.legacyVendorCode raw.title }

/-- Every header byte is in the image: IMG_VALID = 1 and IMG_LEN >= 0x150 (R100). -/
def headerInBounds (u : HeaderUnit) : Bool := u.imgValid && headerEnd ≤ u.imgLen

/-- The unit after a DECODE that read this window (R101, R103). -/
def decoded (raw : HeaderRecord) (u : HeaderUnit) : HeaderUnit :=
  { u with img := Memory.fill u.img (titleWriteBack raw.legacyVendorCode) 0x00, hdr := some (latched raw), hdrValid := true }

/-- DECODE: decode the header window into the record latch, and write the normalised title back (R100, R101). -/
def execDecode (s : State) : Result :=
  if headerInBounds s.hdu then
    orFault (rawHeader s.hdu.img) .headerByteHoldsNoValue fun raw =>
      .next (respond (statusOnly .ok) (s.withHdu (decoded raw s.hdu)))
  else raise .outOfBounds s

/-- IMGRD: read one image byte (R105). -/
def execImgrd (addr : BitVec 24) (s : State) : Result :=
  if s.hdu.imgValid && addr.toNat < s.hdu.imgLen then
    orFault (Memory.read s.hdu.img addr.toNat) (.imageByteHoldsNoValue addr.toNat) fun b =>
      .next (respond { status := .ok, data := b.zeroExtend 16, valid := 1 } s)
  else raise .outOfBounds s

end Sys2Proof.Machine
end

