-- ==== Sys2Proof/Machine/Lookup.lean ====
section
/-! DEFINITION. The read-only tables, the era multiplexer and the four commands that query them (41_lookup_tables.md R120 to
R136). Each lookup is a pure function; the commands read and write no state. -/

namespace Sys2Proof.Machine

open Sys2Proof

/-- What a table with a miss sentinel answers: whether the entry is there, and its name or the sentinel (R120, R126). -/
def hitOrMiss (entry : Option Text) (miss : Text) : Bool × Text := (entry.isSome, entry.getD miss)

/-- `resolve`: the two vendor ROMs and the multiplexer that the comparator `era_flag == 0x33` steers (R120 to R123). -/
def resolve (legacyCode eraFlag : Byte) (modernCode : Word) : Bool × Text :=
  if eraFlag = eraSentinel then hitOrMiss (modernVendors (hiByte modernCode) (loByte modernCode)) unknownVendor
  else hitOrMiss (legacyVendors legacyCode) unknownVendor

/-- `cartname` (R126). -/
def cartname (code : Byte) : Bool × Text := hitOrMiss (cartTypes code) []

/-- `romsize`: 32 * 2^code KiB, codes above 0x04 in MiB, codes above 0x08 absent (R130). -/
def romsize (code : Byte) : RomSize :=
  if code.toNat ≤ 0x08 then
    if code.toNat ≤ 0x04 then { valid := true, num := 32 <<< code.toNat, unit := .kib }
    else { valid := true, num := (32 <<< code.toNat) / 1024, unit := .mib }
  else { valid := false, num := 0, unit := .kib }

/-- The decimal digits of n, at most `fuel` of them, as ASCII bytes (R13). -/
def digits : Nat → Nat → Text
  | 0, _ => []
  | fuel + 1, n => if n < 10 then [BitVec.ofNat 8 (0x30 + n)] else digits fuel (n / 10) ++ [BitVec.ofNat 8 (0x30 + n % 10)]

/-- `dec(n)`: the decimal numeral of n with no leading zeros (R13). -/
def dec (n : Nat) : Text := digits (n + 1) n

/-- "KiB" or "MiB" (R131). -/
def unitText : SizeUnit → Text
  | .kib => [0x4B, 0x69, 0x42]
  | .mib => [0x4D, 0x69, 0x42]

/-- `romstr` (R131). -/
def romstr (r : RomSize) : Text := if r.valid then dec r.num ++ unitText r.unit else []

/-- `ramsize`: the fixed table, −1 for the undocumented code 0x01 (R133). -/
def ramsize (code : Byte) : RamSize :=
  match code.toNat with
  | 0x00 => { valid := true, kib := 0 }
  | 0x01 => { valid := true, kib := -1 }
  | 0x02 => { valid := true, kib := 8 }
  | 0x03 => { valid := true, kib := 32 }
  | 0x04 => { valid := true, kib := 128 }
  | 0x05 => { valid := true, kib := 64 }
  | _ => { valid := false, kib := 0 }

/-- The RAM size on the data lines: 16-bit two's complement, 0 where absent (R134). -/
def ramData (r : RamSize) : Word := if r.valid then BitVec.ofInt 16 r.kib else 0

/-- A one-bit response line. -/
def line (b : Bool) : BitVec 1 := if b then 1 else 0

/-- The `unit` line: 0 for KiB, 1 for MiB (R82). -/
def unitLine : SizeUnit → BitVec 1
  | .kib => 0
  | .mib => 1

/-- The response of VENDOR (R124). -/
def vendorResponse (r : Bool × Text) : Response := { status := .ok, valid := 1, found := line r.1, name := r.2 }

/-- The response of CARTNAME, which echoes the code (R126). -/
def cartnameResponse (code : Byte) (r : Bool × Text) : Response :=
  { status := .ok, data := code.zeroExtend 16, valid := 1, found := line r.1, name := r.2 }

/-- The response of ROMSIZE (R132). -/
def romsizeResponse (r : RomSize) : Response :=
  { status := .ok, data := BitVec.ofNat 16 r.num, valid := line r.valid, unit := unitLine r.unit, found := line r.valid,
    name := romstr r }

/-- The response of RAMSIZE (R135). -/
def ramsizeResponse (r : RamSize) : Response :=
  { status := .ok, data := ramData r, valid := line r.valid, found := line r.valid }

/-- VENDOR: query the vendor resolver (R124). -/
def execVendor (legacyCode eraFlag : Byte) (modernCode : Word) (s : State) : Result :=
  .next (respond (vendorResponse (resolve legacyCode eraFlag modernCode)) s)

/-- CARTNAME: look up a cartridge-type name (R126). -/
def execCartname (code : Byte) (s : State) : Result := .next (respond (cartnameResponse code (cartname code)) s)

/-- ROMSIZE: look up a ROM-size class (R132). -/
def execRomsize (code : Byte) (s : State) : Result := .next (respond (romsizeResponse (romsize code)) s)

/-- RAMSIZE: look up a RAM-size class (R135). -/
def execRamsize (code : Byte) (s : State) : Result := .next (respond (ramsizeResponse (ramsize code)) s)

end Sys2Proof.Machine
end

