-- ==== Sys2Proof/Machine/RecordBus.lean ====
section
/-! DEFINITION. The record bus (10_state.md R33), the derived views of the latched record (41_lookup_tables.md R137 to R140) and
its presentation (R141, R142). All are functions of the state; a consumer outside the block reads them (log 11). -/

namespace Sys2Proof.Machine

open Sys2Proof

/-- `vendor_view`: the byte at 0x14B is both the legacy code and the era flag (R137). -/
def vendorView (h : HeaderRecord) : Bool × Text := resolve h.legacyVendorCode h.legacyVendorCode h.modernVendorCode

/-- `cart_view` (R138). -/
def cartView (h : HeaderRecord) : Bool × Text := cartname h.cartType

/-- `rom_view` (R139). -/
def romView (h : HeaderRecord) : RomSize := romsize h.romSizeCode

/-- `ram_view` (R139). -/
def ramView (h : HeaderRecord) : RamSize := ramsize h.ramSizeCode

/-- `title_view`: the title's bytes before its first NUL (R140). -/
def titleView (h : HeaderRecord) : Text := h.title.takeWhile (· != 0x00)

/-- `raw_vendor`: the code that was looked up (R142). -/
def rawVendor (h : HeaderRecord) : Config.RawVendor :=
  if h.legacyVendorCode = eraSentinel then .modern (hiByte h.modernVendorCode) (loByte h.modernVendorCode)
  else .legacy h.legacyVendorCode

/-- `present`: the ordered tuple (R141). -/
def present (h : HeaderRecord) : Config.Presentation :=
  { title := titleView h, version := h.version, vendorName := (vendorView h).2, rawVendor := rawVendor h,
    cartName := (cartView h).2, cartType := h.cartType, romSize := romstr (romView h) }

/-- The text of a record, through the OPEN renderer (R141). -/
def presentedText (h : HeaderRecord) : Text := Config.render (present h)

/-- The record the bus carries, or none while HDR_VALID = 0 (R30, R33). -/
def busRecord (u : HeaderUnit) : Option HeaderRecord := if u.hdrValid then u.hdr else none

/-- An image byte as a consumer outside reads it: no value while IMG_VALID = 0, nor at or beyond IMG_LEN (R28, I13). -/
def imageByte (u : HeaderUnit) (k : Nat) : Option Byte :=
  if u.imgValid && k < u.imgLen then Memory.read u.img k else none

/-- A read of a record line: a fault while the record holds no value (R14, R33). -/
def fromRecord (u : HeaderUnit) (g : HeaderRecord → ProbeValue) : Host.Outcome ProbeValue Fault Refusal :=
  orFault (busRecord u) .recordHoldsNoValue fun h => .next (g h)

/-- What a consumer reads (R33): the status registers at all times, the record and its views while they hold a value. The RAM view
carries the number of R133 and the word of R134 (DESIGN CHOICE, log 16). -/
def probe (u : HeaderUnit) : Probe → Host.Outcome ProbeValue Fault Refusal
  | .imgValid => .next (.bit u.imgValid)
  | .imgLen => .next (.count u.imgLen)
  | .hdrValid => .next (.bit u.hdrValid)
  | .entryPoint => fromRecord u fun h => .bytes h.entryPoint
  | .logo => fromRecord u fun h => .bytes h.logo
  | .title => fromRecord u fun h => .bytes h.title
  | .modernVendorCode => fromRecord u fun h => .word h.modernVendorCode
  | .sgbFlag => fromRecord u fun h => .byte h.sgbFlag
  | .cartType => fromRecord u fun h => .byte h.cartType
  | .romSizeCode => fromRecord u fun h => .byte h.romSizeCode
  | .ramSizeCode => fromRecord u fun h => .byte h.ramSizeCode
  | .destinationCode => fromRecord u fun h => .byte h.destinationCode
  | .legacyVendorCode => fromRecord u fun h => .byte h.legacyVendorCode
  | .version => fromRecord u fun h => .byte h.version
  | .headerChecksum => fromRecord u fun h => .byte h.headerChecksum
  | .globalChecksum => fromRecord u fun h => .word h.globalChecksum
  | .vendorView => fromRecord u fun h => .named (vendorView h).1 (vendorView h).2
  | .cartView => fromRecord u fun h => .named (cartView h).1 (cartView h).2
  | .romView => fromRecord u fun h => .rom (romView h) (romstr (romView h))
  | .ramView => fromRecord u fun h => .ram (ramView h) (ramData (ramView h))
  | .titleView => fromRecord u fun h => .bytes (titleView h)
  | .imageByte k => orFault (imageByte u k) (.imageByteHoldsNoValue k) fun b => .next (.byte b)

/-- A consumer's reads of one step, in order. -/
def probeAll (u : HeaderUnit) : List Probe → Host.Outcome (List ProbeValue) Fault Refusal
  | [] => .next []
  | p :: ps => andThen (probe u p) fun v => andThen (probeAll u ps) fun vs => .next (v :: vs)

end Sys2Proof.Machine
end

