-- ==== Sys2Proof/Machine/RegisterFile.lean ====
section
/-! DEFINITION. The nine commands of the register-file unit (42_register_file.md). Each command reads and writes `rfu` alone. -/

namespace Sys2Proof.Machine

open Sys2Proof

/-- RESET: the power-on reset of the register file (R150). It leaves the header decoder unit alone (R38). -/
def execReset (s : State) : Result := .next (respond (statusOnly .ok) (s.withRfu RegFile.afterReset))

/-- GETPAIR (R151). -/
def execGetpair (p : BitVec 4) (s : State) : Result :=
  match pairOf p with
  | none => raise .invalidSelector s
  | some p => orFault (readPair s.rfu p) .cellHoldsNoValue fun v => .next (respond { status := .ok, data := v } s)

/-- SETPAIR (R152). -/
def execSetpair (p : BitVec 4) (v : Word) (s : State) : Result :=
  match pairOf p with
  | none => raise .invalidSelector s
  | some p => .next (respond (statusOnly .ok) (s.withRfu (writePair s.rfu p v)))

/-- GETFLAG (R153). -/
def execGetflag (k : BitVec 4) (s : State) : Result :=
  match flagNamed k with
  | none => raise .invalidSelector s
  | some k =>
    orFault (readFlag s.rfu k) .cellHoldsNoValue fun b => .next (respond { status := .ok, data := b.zeroExtend 16 } s)

/-- SETFLAG (R154). -/
def execSetflag (k : BitVec 4) (b : BitVec 1) (s : State) : Result :=
  match flagNamed k with
  | none => raise .invalidSelector s
  | some k => .next (respond (statusOnly .ok) (s.withRfu (writeFlag s.rfu k b)))

/-- GETR8 (R155). -/
def execGetr8 (r : BitVec 4) (s : State) : Result :=
  match reg8Of r with
  | none => raise .invalidSelector s
  | some r =>
    orFault (read8 s.rfu r) .cellHoldsNoValue fun v => .next (respond { status := .ok, data := v.zeroExtend 16 } s)

/-- SETR8 (R156). -/
def execSetr8 (r : BitVec 4) (v : Byte) (s : State) : Result :=
  match reg8Of r with
  | none => raise .invalidSelector s
  | some r => .next (respond (statusOnly .ok) (s.withRfu (write8 s.rfu r v)))

/-- GETR16 (R157). -/
def execGetr16 (x : BitVec 4) (s : State) : Result :=
  match reg16Of x with
  | none => raise .invalidSelector s
  | some x => orFault (read16 s.rfu x) .cellHoldsNoValue fun v => .next (respond { status := .ok, data := v } s)

/-- SETR16 (R158). -/
def execSetr16 (x : BitVec 4) (v : Word) (s : State) : Result :=
  match reg16Of x with
  | none => raise .invalidSelector s
  | some x => .next (respond (statusOnly .ok) (s.withRfu (write16 s.rfu x v)))

end Sys2Proof.Machine
end

