-- ==== Sys2Proof/Machine/Dispatch.lean ====
section
/-! DEFINITION. The meaning of each command: one arm per constructor of Instr. -/

namespace Sys2Proof.Machine

open Sys2Proof

def exec (i : Instr) (s : State) : Host.Outcome State Fault Refusal :=
  match i with
  -- the register-file unit
  | .reset => Sys2Proof.Machine.execReset s
  | .getpair p => Sys2Proof.Machine.execGetpair p s
  | .setpair p v => Sys2Proof.Machine.execSetpair p v s
  | .getflag k => Sys2Proof.Machine.execGetflag k s
  | .setflag k b => Sys2Proof.Machine.execSetflag k b s
  | .getr8 r => Sys2Proof.Machine.execGetr8 r s
  | .setr8 r v => Sys2Proof.Machine.execSetr8 r v s
  | .getr16 x => Sys2Proof.Machine.execGetr16 x s
  | .setr16 x v => Sys2Proof.Machine.execSetr16 x v s
  -- the header decoder unit
  | .decode => Sys2Proof.Machine.execDecode s
  | .vendor legacyCode eraFlag modernCode => Sys2Proof.Machine.execVendor legacyCode eraFlag modernCode s
  | .cartname code => Sys2Proof.Machine.execCartname code s
  | .romsize code => Sys2Proof.Machine.execRomsize code s
  | .ramsize code => Sys2Proof.Machine.execRamsize code s
  | .imgrd addr => Sys2Proof.Machine.execImgrd addr s

end Sys2Proof.Machine
end

