-- ==== Sys2Proof/Machine/Cycle.lean ====
section
/-! DEFINITION. One clock cycle (70_reset_and_hazards.md R223): every port performs its word on the state at the start of the
step, and the writes of the two units land together at its end (R226). -/

namespace Sys2Proof.Machine

open Sys2Proof

/-- Perform the word presented at a port on the state at the start of the step. An idle port answers nothing (R82); an illegal
word answers IllegalCommand and writes nothing (R79, R203). -/
def perform (p : Port) (w : Option Command) (s : State) : Result :=
  match w with
  | none => .next (s.withAnswer none)
  | some w =>
    match admission p w with
    | .error _ => raise .illegalCommand s
    | .ok i => exec i s

/-- What a read port drives of a response (R82). -/
def readPart (r : Response) : ReadResponse := { status := r.status, data := r.data }

/-- What the write port drives of a response (R82). -/
def writePart (r : Response) : Status := r.status

/-- The end of the step (R223): the register file as the write port leaves it, the header decoder unit as the host load or the
decoder port leaves it, and what each port, the host and the consumer are answered. -/
def conclude (i : StepInput) (rest : List StepInput) (rp0 rp1 wp dp : State) (seen : List ProbeValue) : State :=
  { rfu := wp.rfu
    hdu := match i.host with
      | some l => (hostLoad l).1
      | none => dp.hdu
    driver := rest
    answer := none
    out :=
      { rp0 := rp0.answer.map readPart
        rp1 := rp1.answer.map readPart
        wp := wp.answer.map writePart
        dp := dp.answer
        host := i.host.map fun l => (hostLoad l).2
        probes := seen } }

/-- One step with this input (R223). A step with both a host load and a decoder command is no step of the block (R228). Each
port's part is computed from the state `s` at the start; where one of them faults, so does the step (log 6). -/
def cycle (i : StepInput) (rest : List StepInput) (s : State) : Result :=
  if i.wellFormed then
    andThen (perform .rp0 i.rp0 s) fun rp0 =>
    andThen (perform .rp1 i.rp1 s) fun rp1 =>
    andThen (perform .wp i.wp s) fun wp =>
    andThen (perform .dp i.dp s) fun dp =>
    andThen (probeAll s.hdu i.probes) fun seen =>
    .next (conclude i rest rp0 rp1 wp dp seen)
  else .fault .hostLoadWithDecoderCommand

/-- The port at which a single word is presented: one that takes its command, RP0 for a read, and RP0 for a word that no port
takes (log 3). -/
def portFor (w : Command) : Port :=
  match decode w with
  | .ok i => i.ports.headD .rp0
  | .error _ => .rp0

/-- A step that presents one word at one port. -/
def presentAlone (p : Port) (w : Command) : StepInput :=
  match p with
  | .rp0 => { rp0 := some w }
  | .rp1 => { rp1 := some w }
  | .wp => { wp := some w }
  | .dp => { dp := some w }

end Sys2Proof.Machine
end

