-- ==== Sys2Proof/Machine/Step.lean ====
section
/-! DEFINITION. The step of the machine: one clock cycle with the next input of the driver, idle where it has none (log 3). -/

namespace Sys2Proof.Machine

open Sys2Proof

/-- One clock cycle (R12, R223). -/
def step (s : State) : Host.Outcome State Fault Refusal :=
  match s.driver with
  | [] => cycle StepInput.idle [] s
  | i :: rest => cycle i rest s

/-- The state whose next step presents the word `w` of `nbits` bits, alone, at a port that takes it (log 3). -/
def State.withFetchWord (s : State) (nbits w : Nat) : State :=
  s.withDriver (presentAlone (portFor (BitVec.ofNat 40 (w % 2 ^ nbits))) (BitVec.ofNat 40 (w % 2 ^ nbits)) :: s.driver)

end Sys2Proof.Machine
end

