-- ==== Sys2Proof/Machine/Assembler.lean ====
section
/-! DEFINITION. The spec's written form of a step (30_encoding.md R83, R84): from text to what is presented at the ports, or none
where the text is not of that form. The white space, and the image written as a list of bytes, are log 12. -/

namespace Sys2Proof.Machine.Assembler

open Sys2Proof

/-- A token: a word, a separator, or two characters in double quotes. -/
inductive Token where
  | word (cs : List Char)
  | sep (c : Char)
  | quoted (first second : Char)
  deriving DecidableEq, Repr

/-- The braces that group the commands of one step. -/
def openBrace : Char := Char.ofNat 0x7B

/-- The braces that group the commands of one step. -/
def closeBrace : Char := Char.ofNat 0x7D

/-- The characters that stand for themselves. -/
def separators : List Char := [':', ';', ',', '[', ']', openBrace, closeBrace]

/-- A word ended, if one had begun. -/
def flush (acc : List Char) (ts : List Token) : List Token := if acc = [] then ts else .word acc.reverse :: ts

/-- Cut a text into tokens; `acc` is the word begun, last character first. -/
def lex : List Char → List Char → List Token
  | [], acc => flush acc []
  | '"' :: x :: y :: '"' :: cs, acc => flush acc (.quoted x y :: lex cs [])
  | c :: cs, acc =>
    if c = ' ' then flush acc (lex cs [])
    else if c ∈ separators then flush acc (.sep c :: lex cs [])
    else lex cs (c :: acc)

/-- The value of a digit in a base of at most 16. -/
def digit (base : Nat) (c : Char) : Option Nat :=
  let n := c.toNat
  let v :=
    if 0x30 ≤ n ∧ n ≤ 0x39 then n - 0x30
    else if 0x41 ≤ n ∧ n ≤ 0x46 then n - 0x41 + 10
    else if 0x61 ≤ n ∧ n ≤ 0x66 then n - 0x61 + 10
    else 16
  if v < base then some v else none

/-- A numeral's value, most significant digit first, after the digits read so far. -/
def numeral (base : Nat) : Nat → List Char → Option Nat
  | n, [] => some n
  | n, c :: cs =>
    match digit base c with
    | some d => numeral base (n * base + d) cs
    | none => none

/-- A number: `0x` hexadecimal, or decimal (R83). -/
def number : Token → Option Nat
  | .word ('0' :: 'x' :: c :: cs) => numeral 16 0 (c :: cs)
  | .word (c :: cs) => numeral 10 0 (c :: cs)
  | _ => none

/-- A number that fits in w bits; a larger one is ill-formed. -/
def sized (w : Nat) (t : Token) : Option (BitVec w) :=
  match number t with
  | some n => if n < 2 ^ w then some (BitVec.ofNat w n) else none
  | none => none

/-- A selector: one of the names, at its place in the list, or a number (R78, R83). That a number may stand for a selector in range
too is DESIGN CHOICE (log 12): R83 writes the numbers of those out of range alone. -/
def selector (names : List String) (t : Token) : Option (BitVec 4) :=
  match names.findIdx? (fun s => t = .word s.toList) with
  | some k => some (BitVec.ofNat 4 k)
  | none => sized 4 t

/-- The byte of a character, its ASCII code (R13; log 14). A character that has none makes the text ill-formed: DESIGN CHOICE
(log 12), since R13 and R83 give it no byte. -/
def asciiByte (c : Char) : Option Byte := if c.toNat < 0x80 then some (BitVec.ofNat 8 c.toNat) else none

/-- The modern code: a 16-bit number, or a 2-character string, first character high (R83). -/
def modernCode : Token → Option Word
  | .quoted x y => (asciiByte x).bind fun hi => (asciiByte y).map fun lo => hi ++ lo
  | t => sized 16 t

/-- The names of the pairs, in the order of their selectors (R78). -/
def pairNames : List String := ["AF", "BC", "DE", "HL"]

/-- The names of the flags, in the order of their selectors (R78). -/
def flagNames : List String := ["Z", "N", "H", "C"]

/-- The names of the 8-bit cells, in the order of their selectors (R78). -/
def cellNames : List String := ["a", "b", "c", "d", "e", "f", "h", "l"]

/-- The names of the pointers, in the order of their selectors (R78). -/
def pointerNames : List String := ["pc", "sp"]

/-- The command of a mnemonic with its operands (R83). -/
def command (mnemonic : List Char) (ops : List Token) : Option Instr :=
  match ops with
  | [] =>
    if mnemonic = "RESET".toList then some .reset
    else if mnemonic = "DECODE".toList then some .decode
    else none
  | [x] =>
    if mnemonic = "GETPAIR".toList then (selector pairNames x).map .getpair
    else if mnemonic = "GETFLAG".toList then (selector flagNames x).map .getflag
    else if mnemonic = "GETR8".toList then (selector cellNames x).map .getr8
    else if mnemonic = "GETR16".toList then (selector pointerNames x).map .getr16
    else if mnemonic = "CARTNAME".toList then (sized 8 x).map .cartname
    else if mnemonic = "ROMSIZE".toList then (sized 8 x).map .romsize
    else if mnemonic = "RAMSIZE".toList then (sized 8 x).map .ramsize
    else if mnemonic = "IMGRD".toList then (sized 24 x).map .imgrd
    else none
  | [x, y] =>
    if mnemonic = "SETPAIR".toList then (selector pairNames x).bind fun p => (sized 16 y).map (.setpair p)
    else if mnemonic = "SETFLAG".toList then (selector flagNames x).bind fun k => (sized 1 y).map (.setflag k)
    else if mnemonic = "SETR8".toList then (selector cellNames x).bind fun r => (sized 8 y).map (.setr8 r)
    else if mnemonic = "SETR16".toList then (selector pointerNames x).bind fun p => (sized 16 y).map (.setr16 p)
    else none
  | [x, y, z] =>
    if mnemonic = "VENDOR".toList then
      (sized 8 x).bind fun legacyCode => (sized 8 y).bind fun eraFlag => (modernCode z).map (.vendor legacyCode eraFlag)
    else none
  | _ => none

/-- Items separated by commas. -/
def commaList : List Token → Option (List Token)
  | [] => some []
  | [t] => some [t]
  | t :: .sep ',' :: ts =>
    match commaList ts with
    | some [] => none
    | some us => some (t :: us)
    | none => none
  | _ :: _ :: _ => none

/-- Numbers of one byte. -/
def byteList : List Token → Option (List Byte)
  | [] => some []
  | t :: ts =>
    match sized 8 t, byteList ts with
    | some b, some bs => some (b :: bs)
    | _, _ => none

/-- A host load: `LOADFAIL`, or `LOAD` and the image as bytes between brackets (R83, log 12). -/
def hostItem : List Token → Option HostLoad
  | [.word cs] => if cs = "LOADFAIL".toList then some .loadFail else none
  | .word cs :: .sep '[' :: ts =>
    if cs = "LOAD".toList ∧ ts.getLast? = some (Token.sep ']') then
      ((commaList ts.dropLast).bind byteList).map .load
    else none
  | _ => none

/-- Put a word at a port that has none yet: a port takes at most one command in a step (R12). -/
def putAt (p : Port) (w : Command) (i : StepInput) : Option StepInput :=
  match p with
  | .rp0 => if i.rp0 = none then some { i with rp0 := some w } else none
  | .rp1 => if i.rp1 = none then some { i with rp1 := some w } else none
  | .wp => if i.wp = none then some { i with wp := some w } else none
  | .dp => if i.dp = none then some { i with dp := some w } else none

/-- The names of the ports. -/
def portNamed (cs : List Char) : Option Port :=
  if cs = "RP0".toList then some .rp0
  else if cs = "RP1".toList then some .rp1
  else if cs = "WP".toList then some .wp
  else if cs = "DP".toList then some .dp
  else none

/-- One item of a step, `<port>: <MNEMONIC> <operands>` or `HOST: …`, put beside those before it (R83). -/
def item (ts : List Token) (i : StepInput) : Option StepInput :=
  match ts with
  | .word who :: .sep ':' :: rest =>
    if who = "HOST".toList then
      if i.host = none then (hostItem rest).map fun l => { i with host := some l } else none
    else
      match portNamed who, rest with
      | some p, .word mnemonic :: ops =>
        ((commaList ops).bind (command mnemonic)).bind fun c => putAt p (encode c) i
      | _, _ => none
  | _ => none

/-- The items between semicolons. -/
def items : List Token → List (List Token)
  | [] => [[]]
  | t :: ts =>
    match items ts with
    | [] => [[t]]
    | u :: us => if t = Token.sep ';' then [] :: u :: us else (t :: u) :: us

/-- Every item of a step. -/
def itemsInto : List (List Token) → StepInput → Option StepInput
  | [], i => some i
  | u :: us, i => (item u i).bind (itemsInto us)

/-- One written step: one item, or items in braces; never a host load with a decoder command (R83). -/
def assemble (text : String) : Option StepInput :=
  let step :=
    match lex text.toList [] with
    | .sep c :: ts =>
      if c = openBrace ∧ ts.getLast? = some (Token.sep closeBrace) then itemsInto (items ts.dropLast) .idle else none
    | ts => item ts .idle
  step.bind fun i => if i.wellFormed then some i else none

end Sys2Proof.Machine.Assembler
end

