-- ==== Sys2Proof/Safety.lean ====
section
/-! DEFINITION. What is true of every state that a run reaches (State.Inv), and the duties of the driver, the host and the
consumer under which no step stops (State.duties): 70_reset_and_hazards.md R221, R228; 00_scope.md R14. -/

namespace Sys2Proof.Machine

open Sys2Proof

/-- Bits that hold no value stand at 0, so that equal register files are equal data (R14, log 2). -/
def RegFile.canonical (x : RegFile) : Bool :=
  (x.held.a || x.a == 0) && (x.held.b || x.b == 0) && (x.held.c || x.c == 0) && (x.held.d || x.d == 0) &&
  (x.held.e || x.e == 0) && (x.f &&& ~~~x.held.f == 0) && (x.held.h || x.h == 0) && (x.held.l || x.l == 0) &&
  (x.held.pc || x.pc == 0) && (x.held.sp || x.sp == 0)

/-- Every cell holds a value: RESET, or a write of each cell, has taken effect (R37). -/
def RegFile.initialised (x : RegFile) : Bool := x.held = Held.all

/-- What the header decoder unit keeps (R28, R30, R57, R103). -/
structure HeaderUnit.Inv (u : HeaderUnit) : Prop where
  /-- 0 <= IMG_LEN <= IMG_MAX (R28). -/
  capacity : u.imgLen ≤ imgMax
  /-- The bytes 0 to IMG_LEN - 1 hold a value, and no other does (R28). -/
  addresses : u.img.map Prod.fst = List.range u.imgLen
  /-- While IMG_VALID = 0, no byte of the image holds a value (R28). -/
  unloaded : u.imgValid = false → u.imgLen = 0
  /-- HDR_VALID = 1 exactly while the fields of HDR hold values (R30). -/
  latch : u.hdrValid = u.hdr.isSome
  /-- A record that holds a value was decoded from the image now in the store, whose title is the normalised one (R30, R103). -/
  record : ∀ h, u.hdr = some h → headerInBounds u = true ∧ rawHeader u.img = some h ∧ latched h = h

/-- What every state that a run reaches keeps. -/
structure State.Inv (s : State) : Prop where
  regs : s.rfu.canonical = true
  unit : s.hdu.Inv
  between : s.answer = none

/-- The line holds a value (R28, R33). -/
def readableLine (u : HeaderUnit) : Probe → Bool
  | .imgValid | .imgLen | .hdrValid => true
  | .entryPoint | .logo | .title | .modernVendorCode | .sgbFlag | .cartType | .romSizeCode | .ramSizeCode
  | .destinationCode | .legacyVendorCode | .version | .headerChecksum | .globalChecksum
  | .vendorView | .cartView | .romView | .ramView | .titleView => u.hdrValid
  | .imageByte k => u.imgValid && k < u.imgLen

/-- The duties in one step (R221, R228): no host load beside a decoder command, RESET before any read port is used, and only
lines that hold a value are read. -/
def duties (i : StepInput) (s : State) : Bool :=
  i.wellFormed && ((i.rp0.isNone && i.rp1.isNone) || s.rfu.initialised) && i.probes.all (readableLine s.hdu)

/-- The next step's input keeps the duties. -/
def State.dutiful (s : State) : Bool := duties (s.driver.headD StepInput.idle) s

/-- A run of k steps from a state that meets the invariant, which stops at no fault. -/
def SafeRun (k : Nat) (s : State) : Prop := s.Inv ∧ ∃ t, Host.Core.run Sys2Proof.core k s = .next t

end Sys2Proof.Machine
end

