-- ==== Sys2Proof/Certificates/Slice0/Obligations.lean ====
section
/-! DEFINITION. The statements about the block, for the provers. Each docstring names the rule of spec/ that it states. -/

namespace Sys2Proof.Claims

open Sys2Proof Sys2Proof.Machine

/-- A row of R75 at every port, for every word with the row's OP: a word that the row selects is admitted at the row's ports
with these operands and turned away at the others; every other word of that OP has a must-be-zero bit set. -/
def Accepted (pattern mask : Command) (ports : List Port) (operands : Command → Instr) : Prop :=
  ∀ (p : Port) (w : Command), w.extractLsb' 36 4 = pattern.extractLsb' 36 4 →
    admission p w =
      if w &&& mask = pattern then (if p ∈ ports then .ok (operands w) else .error .wrongPort) else .error .mustBeZero

/-- The response of an error: its status, every other field 0 and the name empty (R82, R200). -/
def failed (e : Status) : Response := { status := e, data := 0, valid := 0, unit := 0, found := 0, name := [] }

/-- The response OK with nothing else. -/
def done : Response := { status := .ok, data := 0, valid := 0, unit := 0, found := 0, name := [] }

/-- The response OK with data. -/
def answered (v : Word) : Response := { status := .ok, data := v, valid := 0, unit := 0, found := 0, name := [] }

/-- The response OK of a table with this entry: found = 1 and its name, or found = 0 and the name `miss`. -/
def found (entry : Option Text) (data : Word) (miss : Text) : Response :=
  match entry with
  | some name => { status := .ok, data := data, valid := 1, unit := 0, found := 1, name := name }
  | none => { status := .ok, data := data, valid := 1, unit := 0, found := 0, name := miss }

/-- The command answers this and changes nothing else. -/
def Answers (i : Instr) (s : State) (r : Response) : Prop := exec i s = .next { s with answer := some r }

/-- The command leaves this register file, answers OK, and changes nothing else. -/
def Leaves (i : Instr) (s : State) (x : RegFile) : Prop := exec i s = .next { s with rfu := x, answer := some done }

/-- The selector field of a word. -/
def sel (w : Command) : BitVec 4 := w.extractLsb' 32 4

/-- The image addresses that DECODE stores NUL to, by the era byte (R103). -/
def titleStores (era : Byte) : List Nat := if era = 0x33 then [0x13F, 0x140, 0x141, 0x142, 0x143] else [0x143]

/-- The step with this input goes on to t, and its read ports are answered as the state at its start says. -/
def ReadsTheStart (i : StepInput) (s t : State) : Prop :=
  ∃ a b, perform .rp0 i.rp0 s = .next a ∧ perform .rp1 i.rp1 s = .next b ∧
    t.out.rp0 = a.answer.map readPart ∧ t.out.rp1 = b.answer.map readPart

/-- A state that presents one word alone at one port in its next step. -/
def Presents (s : State) (p : Port) (w : Command) (rest : List StepInput) : Prop := s.driver = presentAlone p w :: rest

end Sys2Proof.Claims

open Sys2Proof Sys2Proof.Machine Sys2Proof.Claims

/-! ## Encodings -/

/-- No bit of a command's operands is dropped: its word decodes to it (R75, R76). -/
def Obligations.EncodeThenDecodeIsIdentity : Prop := ∀ i : Instr, decode (encode i) = .ok i

/-- Each command has one word (R75, R81). -/
def Obligations.DecodeThenEncodeIsIdentity : Prop := ∀ (w : Command) (i : Instr), decode w = .ok i → encode i = w

/-- Words that the spec writes out decode as the spec says, one of each row (R150 to R158, 95_test_vectors.md). -/
def Obligations.SpecWordsDecodeAsWritten : Prop :=
  decode 0x1000000000 = .ok .reset ∧ decode 0x2100000000 = .ok (.getpair 1) ∧
  decode 0x310000BEEF = .ok (.setpair 1 0xBEEF) ∧ decode 0x4300000000 = .ok (.getflag 3) ∧
  decode 0x5300000001 = .ok (.setflag 3 1) ∧ decode 0x6700000000 = .ok (.getr8 7) ∧
  decode 0x7600000012 = .ok (.setr8 6 0x12) ∧ decode 0x8100000000 = .ok (.getr16 1) ∧
  decode 0x910000FFFE = .ok (.setr16 1 0xFFFE) ∧ decode 0xA000000000 = .ok .decode ∧
  decode 0xB001323738 = .ok (.vendor 0x01 0x32 0x3738) ∧ decode 0xC0EE000000 = .ok (.cartname 0xEE) ∧
  decode 0xD005000000 = .ok (.romsize 0x05) ∧ decode 0xE003000000 = .ok (.ramsize 0x03) ∧
  decode 0xF001002345 = .ok (.imgrd 0x012345)

/-- "The 15 rows select disjoint sets of words" (R75). -/
def Obligations.EveryWordSelectsAtMostOneRow : Prop :=
  rows.length = 15 ∧ ∀ w : Command, (rows.filter fun r => r.selects w).length ≤ 1

/-- The illegal words of R79 (a), (b), (c) answer IllegalCommand and do nothing else (R203); every other word at a port performs
the command of its row. -/
def Obligations.IllegalWordsPerformNothing : Prop :=
  ∀ (p : Port) (w : Command) (s : State),
    ((w.extractLsb' 36 4 = 0 ∨ (∀ r ∈ rows, w &&& r.mask ≠ r.pattern) ∨ ∃ i, decode w = .ok i ∧ p ∉ i.ports) →
      perform p (some w) s = .next { s with answer := some (failed .illegalCommand) }) ∧
    (∀ r ∈ rows, w &&& r.mask = r.pattern → p ∈ (r.assemble (Fields.ofWord w)).ports →
      perform p (some w) s = exec (r.assemble (Fields.ofWord w)) s)

/-! ## The register file -/

/-- RESET sets the ten cells to the values of R36, in any state, and leaves everything else of the machine alone; the reads of
its own step see the values from before it (R150). -/
def Obligations.ResetSetsEveryCell : Prop :=
  Accepted 0x1000000000 0xFFFFFFFFFF [.wp] (fun _ => .reset) ∧
  ∀ s : State,
    Leaves .reset s
      { a := 0x01, b := 0x00, c := 0x00, d := 0x00, e := 0x00, f := 0x00, h := 0x00, l := 0x00, pc := 0x0100, sp := 0x0000,
        held := Held.all } ∧
    (∀ t, exec .reset s = .next t →
      Answers (.getpair 0) t (answered 0x0100) ∧ Answers (.getpair 1) t (answered 0x0000) ∧
      Answers (.getpair 2) t (answered 0x0000) ∧ Answers (.getpair 3) t (answered 0x0000) ∧
      Answers (.getflag 0) t (answered 0) ∧ Answers (.getflag 1) t (answered 0) ∧
      Answers (.getflag 2) t (answered 0) ∧ Answers (.getflag 3) t (answered 0)) ∧
    ∀ (i : StepInput) (rest : List StepInput) (t : State), i.wp = some 0x1000000000 → cycle i rest s = .next t →
      ReadsTheStart i s t

/-- GETPAIR answers the high cell before the low cell, or InvalidSelector (R151, R22). -/
def Obligations.GetpairAnswersThePair : Prop :=
  Accepted 0x2000000000 0xF0FFFFFFFF [.rp0, .rp1] (fun w => .getpair (sel w)) ∧
  ∀ s : State,
    (s.rfu.held.a = true → s.rfu.held.f = 0xFF → Answers (.getpair 0) s (answered (s.rfu.a ++ s.rfu.f))) ∧
    (s.rfu.held.b = true → s.rfu.held.c = true → Answers (.getpair 1) s (answered (s.rfu.b ++ s.rfu.c))) ∧
    (s.rfu.held.d = true → s.rfu.held.e = true → Answers (.getpair 2) s (answered (s.rfu.d ++ s.rfu.e))) ∧
    (s.rfu.held.h = true → s.rfu.held.l = true → Answers (.getpair 3) s (answered (s.rfu.h ++ s.rfu.l))) ∧
    (∀ p : BitVec 4, 4 ≤ p.toNat → Answers (.getpair p) s (failed .invalidSelector)) ∧
    ∀ w, perform .rp0 w s = perform .rp1 w s

/-- SETPAIR writes the two cells of the pair with no masking, or answers InvalidSelector and writes nothing (R152). -/
def Obligations.SetpairWritesTwoCells : Prop :=
  Accepted 0x3000000000 0xF0FFFF0000 [.wp] (fun w => .setpair (sel w) (w.extractLsb' 0 16)) ∧
  ∀ (s : State) (v : Word),
    Leaves (.setpair 0 v) s
      { s.rfu with a := v.extractLsb' 8 8, f := v.extractLsb' 0 8, held := { s.rfu.held with a := true, f := 0xFF } } ∧
    Leaves (.setpair 1 v) s
      { s.rfu with b := v.extractLsb' 8 8, c := v.extractLsb' 0 8, held := { s.rfu.held with b := true, c := true } } ∧
    Leaves (.setpair 2 v) s
      { s.rfu with d := v.extractLsb' 8 8, e := v.extractLsb' 0 8, held := { s.rfu.held with d := true, e := true } } ∧
    Leaves (.setpair 3 v) s
      { s.rfu with h := v.extractLsb' 8 8, l := v.extractLsb' 0 8, held := { s.rfu.held with h := true, l := true } } ∧
    (∀ p : BitVec 4, 4 ≤ p.toNat → Answers (.setpair p v) s (failed .invalidSelector)) ∧
    ∀ (p : BitVec 4) (t : State), p.toNat < 4 → exec (.setpair p v) s = .next t → Answers (.getpair p) t (answered v)

/-- GETFLAG answers bit 7 - k of `f`, zero-extended, or InvalidSelector; no other bit of `f` matters (R153, R23). -/
def Obligations.GetflagAnswersTheFlag : Prop :=
  Accepted 0x4000000000 0xF0FFFFFFFF [.rp0, .rp1] (fun w => .getflag (sel w)) ∧
  ∀ (s : State) (k : BitVec 4),
    (k.toNat < 4 → s.rfu.held.f.getLsbD (7 - k.toNat) = true →
      Answers (.getflag k) s (answered (if s.rfu.f.getLsbD (7 - k.toNat) then 1 else 0))) ∧
    (4 ≤ k.toNat → Answers (.getflag k) s (failed .invalidSelector))

/-- SETFLAG writes bit 7 - k of `f` and no other bit of the machine, or answers InvalidSelector (R154, R37). -/
def Obligations.SetflagWritesOneBit : Prop :=
  Accepted 0x5000000000 0xF0FFFFFFFE [.wp] (fun w => .setflag (sel w) (w.extractLsb' 0 1)) ∧
  ∀ (s : State) (k : BitVec 4) (b : BitVec 1),
    (k.toNat < 4 → ∃ f held : Byte,
      Leaves (.setflag k b) s { s.rfu with f := f, held := { s.rfu.held with f := held } } ∧
      ∀ j, j < 8 →
        f.getLsbD j = (if j = 7 - k.toNat then b == 1 else s.rfu.f.getLsbD j) ∧
        held.getLsbD j = (if j = 7 - k.toNat then true else s.rfu.held.f.getLsbD j)) ∧
    (4 ≤ k.toNat → Answers (.setflag k b) s (failed .invalidSelector))

/-- GETR8 answers the cell, zero-extended, all eight bits of `f` included, or InvalidSelector (R155). -/
def Obligations.Getr8AnswersTheCell : Prop :=
  Accepted 0x6000000000 0xF0FFFFFFFF [.rp0, .rp1] (fun w => .getr8 (sel w)) ∧
  ∀ s : State,
    (s.rfu.held.a = true → Answers (.getr8 0) s (answered ((0 : Byte) ++ s.rfu.a))) ∧
    (s.rfu.held.b = true → Answers (.getr8 1) s (answered ((0 : Byte) ++ s.rfu.b))) ∧
    (s.rfu.held.c = true → Answers (.getr8 2) s (answered ((0 : Byte) ++ s.rfu.c))) ∧
    (s.rfu.held.d = true → Answers (.getr8 3) s (answered ((0 : Byte) ++ s.rfu.d))) ∧
    (s.rfu.held.e = true → Answers (.getr8 4) s (answered ((0 : Byte) ++ s.rfu.e))) ∧
    (s.rfu.held.f = 0xFF → Answers (.getr8 5) s (answered ((0 : Byte) ++ s.rfu.f))) ∧
    (s.rfu.held.h = true → Answers (.getr8 6) s (answered ((0 : Byte) ++ s.rfu.h))) ∧
    (s.rfu.held.l = true → Answers (.getr8 7) s (answered ((0 : Byte) ++ s.rfu.l))) ∧
    ∀ r : BitVec 4, 8 ≤ r.toNat → Answers (.getr8 r) s (failed .invalidSelector)

/-- SETR8 writes the cell with no masking, or answers InvalidSelector and writes nothing (R156). -/
def Obligations.Setr8WritesTheCell : Prop :=
  Accepted 0x7000000000 0xF0FFFFFF00 [.wp] (fun w => .setr8 (sel w) (w.extractLsb' 0 8)) ∧
  ∀ (s : State) (v : Byte),
    Leaves (.setr8 0 v) s { s.rfu with a := v, held := { s.rfu.held with a := true } } ∧
    Leaves (.setr8 1 v) s { s.rfu with b := v, held := { s.rfu.held with b := true } } ∧
    Leaves (.setr8 2 v) s { s.rfu with c := v, held := { s.rfu.held with c := true } } ∧
    Leaves (.setr8 3 v) s { s.rfu with d := v, held := { s.rfu.held with d := true } } ∧
    Leaves (.setr8 4 v) s { s.rfu with e := v, held := { s.rfu.held with e := true } } ∧
    Leaves (.setr8 5 v) s { s.rfu with f := v, held := { s.rfu.held with f := 0xFF } } ∧
    Leaves (.setr8 6 v) s { s.rfu with h := v, held := { s.rfu.held with h := true } } ∧
    Leaves (.setr8 7 v) s { s.rfu with l := v, held := { s.rfu.held with l := true } } ∧
    ∀ r : BitVec 4, 8 ≤ r.toNat → Answers (.setr8 r v) s (failed .invalidSelector)

/-- GETR16 answers `pc` or `sp`, or InvalidSelector (R157). -/
def Obligations.Getr16AnswersThePointer : Prop :=
  Accepted 0x8000000000 0xF0FFFFFFFF [.rp0, .rp1] (fun w => .getr16 (sel w)) ∧
  ∀ s : State,
    (s.rfu.held.pc = true → Answers (.getr16 0) s (answered s.rfu.pc)) ∧
    (s.rfu.held.sp = true → Answers (.getr16 1) s (answered s.rfu.sp)) ∧
    ∀ x : BitVec 4, 2 ≤ x.toNat → Answers (.getr16 x) s (failed .invalidSelector)

/-- SETR16 writes `pc` or `sp` with any value, odd or even, or answers InvalidSelector and writes nothing (R158). -/
def Obligations.Setr16WritesThePointer : Prop :=
  Accepted 0x9000000000 0xF0FFFF0000 [.wp] (fun w => .setr16 (sel w) (w.extractLsb' 0 16)) ∧
  ∀ (s : State) (v : Word),
    Leaves (.setr16 0 v) s { s.rfu with pc := v, held := { s.rfu.held with pc := true } } ∧
    Leaves (.setr16 1 v) s { s.rfu with sp := v, held := { s.rfu.held with sp := true } } ∧
    ∀ x : BitVec 4, 2 ≤ x.toNat → Answers (.setr16 x v) s (failed .invalidSelector)

/-- The laws of the register file over two steps (R163): pairs and flags read back as written, on both read ports, the other
flags, `f[3:0]` and the cells outside stay, and a pair is its two cells. -/
def Obligations.PairsAndFlagsReadBackAsWritten : Prop :=
  ∀ s : State, s.rfu.initialised = true →
    (∀ (p : BitVec 4) (v : Word) (rest : List StepInput), p.toNat < 4 →
      s.driver = { wp := some (encode (.setpair p v)) } ::
        { rp0 := some (encode (.getpair p)), rp1 := some (encode (.getpair p)) } :: rest →
      ∃ t, Host.Core.run Sys2Proof.core 2 s = .next t ∧ t.out.rp0 = some { status := .ok, data := v } ∧
        t.out.rp1 = some { status := .ok, data := v } ∧ (∀ q, bits16 t.rfu q = bits16 s.rfu q) ∧
        ∀ q, (∀ P, pairOf p = some P → q ≠ pairHigh P ∧ q ≠ pairLow P) → bits8 t.rfu q = bits8 s.rfu q) ∧
    (∀ (k : BitVec 4) (b : BitVec 1) (rest : List StepInput), k.toNat < 4 →
      s.driver = { wp := some (encode (.setflag k b)) } ::
        { rp0 := some (encode (.getflag k)), rp1 := some (encode (.getflag k)) } :: rest →
      ∃ t, Host.Core.run Sys2Proof.core 2 s = .next t ∧ t.out.rp0 = some { status := .ok, data := b.zeroExtend 16 } ∧
        t.out.rp1 = some { status := .ok, data := b.zeroExtend 16 } ∧ (∀ q, bits16 t.rfu q = bits16 s.rfu q) ∧
        (∀ j, j < 8 → j ≠ 7 - k.toNat → t.rfu.f.getLsbD j = s.rfu.f.getLsbD j) ∧
        ∀ q, q ≠ .f → bits8 t.rfu q = bits8 s.rfu q) ∧
    (∀ (p : BitVec 4) (P : Pair), pairOf p = some P →
      Answers (.getpair p) s
        (answered ((bits8 s.rfu (pairHigh P)).zeroExtend 16 <<< 8 ||| (bits8 s.rfu (pairLow P)).zeroExtend 16)))

/-- What the register-file commands leave alone when they go on (R25, R160): the header decoder unit, the inputs to come and
the last outputs always; for a write, every 8-bit cell but its destination, and the pointers but its destination; for a
read, every cell. -/
def Obligations.RegisterCommandsKeepTheRest : Prop :=
  ∀ s t : State,
    (∀ p : BitVec 4, exec (.getpair p) s = .next t → t = { s with answer := t.answer }) ∧
    (∀ k : BitVec 4, exec (.getflag k) s = .next t → t = { s with answer := t.answer }) ∧
    (∀ r : BitVec 4, exec (.getr8 r) s = .next t → t = { s with answer := t.answer }) ∧
    (∀ x : BitVec 4, exec (.getr16 x) s = .next t → t = { s with answer := t.answer }) ∧
    (∀ (p : BitVec 4) (v : Word), exec (.setpair p v) s = .next t →
      t = { s with rfu := t.rfu, answer := t.answer } ∧ (∀ q, read16 t.rfu q = read16 s.rfu q) ∧
      ∀ q, (∀ P, pairOf p = some P → q ≠ pairHigh P ∧ q ≠ pairLow P) → read8 t.rfu q = read8 s.rfu q) ∧
    (∀ (k : BitVec 4) (b : BitVec 1), exec (.setflag k b) s = .next t →
      t = { s with rfu := t.rfu, answer := t.answer } ∧ (∀ q, read16 t.rfu q = read16 s.rfu q) ∧
      (∀ q, q ≠ .f → read8 t.rfu q = read8 s.rfu q) ∧
      ∀ j, flagNamed k ≠ some j → readFlag t.rfu j = readFlag s.rfu j) ∧
    (∀ (r : BitVec 4) (v : Byte), exec (.setr8 r v) s = .next t →
      t = { s with rfu := t.rfu, answer := t.answer } ∧ (∀ q, read16 t.rfu q = read16 s.rfu q) ∧
      ∀ q, reg8Of r ≠ some q → read8 t.rfu q = read8 s.rfu q) ∧
    (∀ (x : BitVec 4) (v : Word), exec (.setr16 x v) s = .next t →
      t = { s with rfu := t.rfu, answer := t.answer } ∧ (∀ q, read8 t.rfu q = read8 s.rfu q) ∧
      ∀ q, reg16Of x ≠ some q → read16 t.rfu q = read16 s.rfu q)

/-- No command increments, aligns or wraps `pc` or `sp`: over a whole step they change only by RESET and SETR16 (R26, R207). -/
def Obligations.PointersChangeOnlyByWriteOrReset : Prop :=
  ∀ s t : State, step s = .next t →
    (∀ w, (s.driver.headD StepInput.idle).wp = some w → decode w ≠ .ok .reset ∧ ∀ x v, decode w ≠ .ok (.setr16 x v)) →
    ∀ q, read16 t.rfu q = read16 s.rfu q ∧ bits16 t.rfu q = bits16 s.rfu q

/-- A read of a cell that holds no value is a model fault (R14, R37): in every state, GETPAIR where either cell of the pair holds none
and GETFLAG where its bit of `f` holds none. At power-on no cell holds a value: every in-range read is that fault; a write of a cell
makes it, and no other, hold one; SETFLAG makes one bit of `f` hold one; RESET makes every cell hold one (R37, R220). That a cell
written before the first RESET is read as written, and that an out-of-range read is answered InvalidSelector even at power-on, is
the model's reading (log 2). -/
def Obligations.PowerOnCellsHoldNoValue : Prop :=
  (∀ s : State,
    (∀ (p : BitVec 4) (P : Pair), pairOf p = some P →
      (holds8 s.rfu (pairHigh P) = false ∨ holds8 s.rfu (pairLow P) = false) →
      exec (.getpair p) s = .fault .cellHoldsNoValue) ∧
    (∀ k : BitVec 4, k.toNat < 4 → s.rfu.held.f.getLsbD (7 - k.toNat) = false →
      exec (.getflag k) s = .fault .cellHoldsNoValue) ∧
    (∀ (r : BitVec 4) (cell : Reg8), reg8Of r = some cell → holds8 s.rfu cell = false → exec (.getr8 r) s = .fault .cellHoldsNoValue) ∧
    ∀ (x : BitVec 4) (c : Reg16), reg16Of x = some c → holds16 s.rfu c = false →
      exec (.getr16 x) s = .fault .cellHoldsNoValue) ∧
  (∀ q : BitVec 4,
    (4 ≤ q.toNat → Answers (.getpair q) State.powerOn (failed .invalidSelector) ∧
      Answers (.getflag q) State.powerOn (failed .invalidSelector)) ∧
    (8 ≤ q.toNat → Answers (.getr8 q) State.powerOn (failed .invalidSelector)) ∧
    (2 ≤ q.toNat → Answers (.getr16 q) State.powerOn (failed .invalidSelector))) ∧
  (∀ p : BitVec 4, p.toNat < 4 → exec (.getpair p) State.powerOn = .fault .cellHoldsNoValue) ∧
  (∀ k : BitVec 4, k.toNat < 4 → exec (.getflag k) State.powerOn = .fault .cellHoldsNoValue) ∧
  (∀ r : BitVec 4, r.toNat < 8 → exec (.getr8 r) State.powerOn = .fault .cellHoldsNoValue) ∧
  (∀ x : BitVec 4, x.toNat < 2 → exec (.getr16 x) State.powerOn = .fault .cellHoldsNoValue) ∧
  (∀ (r : BitVec 4) (v : Byte), r.toNat < 8 → ∃ t, exec (.setr8 r v) State.powerOn = .next t ∧
    Answers (.getr8 r) t (answered ((0 : Byte) ++ v)) ∧
    ∀ q : BitVec 4, q.toNat < 8 → q ≠ r → exec (.getr8 q) t = .fault .cellHoldsNoValue) ∧
  (∀ (x : BitVec 4) (v : Word), x.toNat < 2 → ∃ t, exec (.setr16 x v) State.powerOn = .next t ∧
    Answers (.getr16 x) t (answered v) ∧
    ∀ q : BitVec 4, q.toNat < 2 → q ≠ x → exec (.getr16 q) t = .fault .cellHoldsNoValue) ∧
  (∀ (p : BitVec 4) (v : Word), p.toNat < 4 → ∃ t, exec (.setpair p v) State.powerOn = .next t ∧
    Answers (.getpair p) t (answered v) ∧
    ∀ q : BitVec 4, q.toNat < 4 → q ≠ p → exec (.getpair q) t = .fault .cellHoldsNoValue) ∧
  (∀ (k : BitVec 4) (b : BitVec 1), k.toNat < 4 → ∃ t, exec (.setflag k b) State.powerOn = .next t ∧
    Answers (.getflag k) t (answered (b.zeroExtend 16)) ∧ exec (.getr8 5) t = .fault .cellHoldsNoValue ∧
    ∀ j : BitVec 4, j.toNat < 4 → j ≠ k → exec (.getflag j) t = .fault .cellHoldsNoValue) ∧
  ∃ t, exec .reset State.powerOn = .next t ∧ t.rfu.held = Held.all

/-! ## The header decoder -/

/-- DECODE goes on with OutOfBounds, writing nothing, unless IMG_VALID = 1 and IMG_LEN >= 0x150 (R100). -/
def Obligations.DecodeNeedsTheWholeWindow : Prop :=
  Accepted 0xA000000000 0xFFFFFFFFFF [.dp] (fun _ => .decode) ∧
  ∀ s : State, (s.hdu.imgValid = false ∨ s.hdu.imgLen < 0x150) → Answers .decode s (failed .outOfBounds)

/-- DECODE on an image whose window bytes are b latches the record of R29 with the title normalised as R102 says, writes the
normalised title bytes back (R103), sets HDR_VALID and answers OK, whatever the bytes are (R101, R106, R107). -/
def Obligations.DecodeLatchesTheHeaderWindow : Prop :=
  ∀ (s : State) (b : Nat → Byte), s.hdu.imgValid = true → 0x150 ≤ s.hdu.imgLen →
    (∀ k, 0x100 ≤ k → k < 0x150 → Memory.read s.hdu.img k = some (b k)) →
    exec .decode s = .next { s with
      hdu := { s.hdu with
        img := Memory.fill s.hdu.img (titleStores (b 0x14B)) 0x00
        hdr := some {
          entryPoint := [b 0x100, b 0x101, b 0x102, b 0x103]
          logo := (List.range 48).map fun i => b (0x104 + i)
          title := (List.range 16).map fun i => if i = 15 ∨ (11 ≤ i ∧ b 0x14B = 0x33) then 0x00 else b (0x134 + i)
          modernVendorCode := b 0x144 ++ b 0x145
          sgbFlag := b 0x146
          cartType := b 0x147
          romSizeCode := b 0x148
          ramSizeCode := b 0x149
          destinationCode := b 0x14A
          legacyVendorCode := b 0x14B
          version := b 0x14C
          headerChecksum := b 0x14D
          globalChecksum := b 0x14E ++ b 0x14F }
        hdrValid := true }
      answer := some done }

/-- After a DECODE that answered OK, the image's title bytes are the latched title, the bytes written are NUL, and every other
byte of the image, its length, its valid bit and the whole register file are as before (R103, R56). -/
def Obligations.DecodeWritesBackOnlyTheTitle : Prop :=
  ∀ (s t : State) (era : Byte), exec .decode s = .next t → t.answer = some done →
    Memory.read s.hdu.img 0x14B = some era →
    t = { s with hdu := t.hdu, answer := some done } ∧ t.hdu.imgLen = s.hdu.imgLen ∧ t.hdu.imgValid = s.hdu.imgValid ∧
    (∀ k ∈ titleStores era, Memory.read t.hdu.img k = some 0x00) ∧
    (∀ k, k ∉ titleStores era → Memory.read t.hdu.img k = Memory.read s.hdu.img k) ∧
    ∃ h, t.hdu.hdr = some h ∧ h.title.length = 16 ∧ ∀ i, i < 16 → Memory.read t.hdu.img (0x134 + i) = h.title[i]?

/-- After a DECODE that answered OK: the title ends in NUL, its text has at most 15 bytes, at most 11 in the modern era with
bytes 11 to 15 NUL, and another DECODE changes nothing at all (R104). -/
def Obligations.LatchedTitleIsTerminated : Prop :=
  ∀ s t : State, exec .decode s = .next t → t.answer = some done →
    (∃ h, t.hdu.hdr = some h ∧ h.title[15]? = some 0x00 ∧ (titleView h).length ≤ 15 ∧
      (h.legacyVendorCode = 0x33 →
        (∀ i, 11 ≤ i → i ≤ 15 → h.title[i]? = some 0x00) ∧ (titleView h).length ≤ 11)) ∧
    exec .decode t = .next t

/-- IMGRD answers the byte zero-extended with valid = 1, or OutOfBounds; it writes nothing; after a DECODE byte 0x143 reads 0; no
address at or above IMG_MAX is answered OK (R105). -/
def Obligations.ImgrdReadsOneByte : Prop :=
  Accepted 0xF000000000 0xFF00FF0000 [.dp] (fun w => .imgrd (w.extractLsb' 24 8 ++ w.extractLsb' 0 16)) ∧
  ∀ (s : State) (addr : BitVec 24),
    ((s.hdu.imgValid = false ∨ s.hdu.imgLen ≤ addr.toNat) → Answers (.imgrd addr) s (failed .outOfBounds)) ∧
    (∀ b, s.hdu.imgValid = true → addr.toNat < s.hdu.imgLen → Memory.read s.hdu.img addr.toNat = some b →
      Answers (.imgrd addr) s { status := .ok, data := (0 : Byte) ++ b, valid := 1, unit := 0, found := 0, name := [] }) ∧
    (∀ r, s.hdu.imgLen ≤ imgMax → Answers (.imgrd addr) s r → r.status = .ok → addr.toNat < imgMax) ∧
    (∀ t, exec .decode s = .next t → t.answer = some done →
      Answers (.imgrd 0x143) t { status := .ok, data := 0x0000, valid := 1, unit := 0, found := 0, name := [] })

/-- The decoder-port commands that only look something up, and the read of an image byte, change nothing but the response
(R55, R56, and "no state is written" of R124, R126, R132, R135). -/
def Obligations.LookupsKeepTheRest : Prop :=
  ∀ s t : State,
    (∀ a e m, exec (.vendor a e m) s = .next t → t = { s with answer := t.answer }) ∧
    (∀ c, exec (.cartname c) s = .next t → t = { s with answer := t.answer }) ∧
    (∀ c, exec (.romsize c) s = .next t → t = { s with answer := t.answer }) ∧
    (∀ c, exec (.ramsize c) s = .next t → t = { s with answer := t.answer }) ∧
    (∀ a, exec (.imgrd a) s = .next t → t = { s with answer := t.answer })

/-! ## The lookup tables -/

/-- VENDOR: the era flag alone chooses the table, each table is indexed by its own code, and a miss in either gives found = 0
and "Unknown Vendor" (R120 to R124). The bytes of that string are ASCII codes, which the model presumes (R13, log 14). -/
def Obligations.VendorResolvesTheName : Prop :=
  Accepted 0xB000000000 0xFF00000000 [.dp]
    (fun w => .vendor (w.extractLsb' 24 8) (w.extractLsb' 16 8) (w.extractLsb' 0 16)) ∧
  ∀ (s : State) (legacyCode eraFlag : Byte) (modernCode : Word),
    Answers (.vendor legacyCode eraFlag modernCode) s
      (found (if eraFlag = 0x33 then modernVendors (modernCode.extractLsb' 8 8) (modernCode.extractLsb' 0 8)
        else legacyVendors legacyCode) 0x0000
        [0x55, 0x6E, 0x6B, 0x6E, 0x6F, 0x77, 0x6E, 0x20, 0x56, 0x65, 0x6E, 0x64, 0x6F, 0x72])

/-- What the spec pins about the OPEN parameters holds whatever they are (R8, R125): the bounds, the two pinned entries, a legacy
code without an entry, and the length of every name. How the model lays the bounds and entries over constants without a body is
its own (logs 7, 8, 9), and the bytes of the two names are ASCII codes, which it presumes (R13, log 14). -/
def Obligations.OpenParametersKeepTheirBounds : Prop :=
  0x150 ≤ imgMax ∧ imgMax ≤ 2 ^ 24 ∧ 14 ≤ nameMax ∧
  legacyVendors 0x01 = some [0x4E, 0x69, 0x6E, 0x74, 0x65, 0x6E, 0x64, 0x6F] ∧
  modernVendors 0x37 0x38 = some [0x54, 0x48, 0x51] ∧
  (∃ c, legacyVendors c = none) ∧
  (∀ c, ((legacyVendors c).getD []).length ≤ nameMax) ∧
  (∀ x y, ((modernVendors x y).getD []).length ≤ nameMax) ∧
  (∀ c, ((cartTypes c).getD []).length ≤ nameMax)

/-- CARTNAME answers the entry's name, or found = 0 and the empty name, and echoes the code (R126). -/
def Obligations.CartnameLooksUpTheCode : Prop :=
  Accepted 0xC000000000 0xFF00FFFFFF [.dp] (fun w => .cartname (w.extractLsb' 24 8)) ∧
  ∀ (s : State) (code : Byte), Answers (.cartname code) s (found (cartTypes code) ((0 : Byte) ++ code) [])

/-- ROMSIZE answers the size class of each code with its string, and an absent result above 0x08 (R130 to R132). The bytes of the
strings are ASCII codes, which the model presumes (R13, log 14). -/
def Obligations.RomsizeReportsTheClass : Prop :=
  Accepted 0xD000000000 0xFF00FFFFFF [.dp] (fun w => .romsize (w.extractLsb' 24 8)) ∧
  ∀ s : State,
    Answers (.romsize 0x00) s
      { status := .ok, data := 32, valid := 1, unit := 0, found := 1, name := [0x33, 0x32, 0x4B, 0x69, 0x42] } ∧
    Answers (.romsize 0x01) s
      { status := .ok, data := 64, valid := 1, unit := 0, found := 1, name := [0x36, 0x34, 0x4B, 0x69, 0x42] } ∧
    Answers (.romsize 0x02) s
      { status := .ok, data := 128, valid := 1, unit := 0, found := 1, name := [0x31, 0x32, 0x38, 0x4B, 0x69, 0x42] } ∧
    Answers (.romsize 0x03) s
      { status := .ok, data := 256, valid := 1, unit := 0, found := 1, name := [0x32, 0x35, 0x36, 0x4B, 0x69, 0x42] } ∧
    Answers (.romsize 0x04) s
      { status := .ok, data := 512, valid := 1, unit := 0, found := 1, name := [0x35, 0x31, 0x32, 0x4B, 0x69, 0x42] } ∧
    Answers (.romsize 0x05) s
      { status := .ok, data := 1, valid := 1, unit := 1, found := 1, name := [0x31, 0x4D, 0x69, 0x42] } ∧
    Answers (.romsize 0x06) s
      { status := .ok, data := 2, valid := 1, unit := 1, found := 1, name := [0x32, 0x4D, 0x69, 0x42] } ∧
    Answers (.romsize 0x07) s
      { status := .ok, data := 4, valid := 1, unit := 1, found := 1, name := [0x34, 0x4D, 0x69, 0x42] } ∧
    Answers (.romsize 0x08) s
      { status := .ok, data := 8, valid := 1, unit := 1, found := 1, name := [0x38, 0x4D, 0x69, 0x42] } ∧
    ∀ code : Byte, 0x08 < code.toNat → Answers (.romsize code) s done

/-- RAMSIZE answers the fixed table in 16-bit two's complement, −1 for code 0x01, and an absent result above 0x05 (R133 to
R135). -/
def Obligations.RamsizeReportsTheClass : Prop :=
  Accepted 0xE000000000 0xFF00FFFFFF [.dp] (fun w => .ramsize (w.extractLsb' 24 8)) ∧
  ∀ s : State,
    Answers (.ramsize 0x00) s { status := .ok, data := 0x0000, valid := 1, unit := 0, found := 1, name := [] } ∧
    Answers (.ramsize 0x01) s { status := .ok, data := 0xFFFF, valid := 1, unit := 0, found := 1, name := [] } ∧
    Answers (.ramsize 0x02) s { status := .ok, data := 0x0008, valid := 1, unit := 0, found := 1, name := [] } ∧
    Answers (.ramsize 0x03) s { status := .ok, data := 0x0020, valid := 1, unit := 0, found := 1, name := [] } ∧
    Answers (.ramsize 0x04) s { status := .ok, data := 0x0080, valid := 1, unit := 0, found := 1, name := [] } ∧
    Answers (.ramsize 0x05) s { status := .ok, data := 0x0040, valid := 1, unit := 0, found := 1, name := [] } ∧
    ∀ code : Byte, 0x05 < code.toNat → Answers (.ramsize code) s done

/-- An unknown vendor, an unknown cartridge type or an unsupported size code is a result with status OK (R136). -/
def Obligations.UnknownCodesAreNoErrors : Prop :=
  ∀ s : State,
    (∀ a e m, ∃ r, Answers (.vendor a e m) s r ∧ r.status = .ok) ∧ (∀ c, ∃ r, Answers (.cartname c) s r ∧ r.status = .ok) ∧
    (∀ c, ∃ r, Answers (.romsize c) s r ∧ r.status = .ok) ∧ (∀ c, ∃ r, Answers (.ramsize c) s r ∧ r.status = .ok)

/-! ## The record bus -/

/-- The bus carries the status registers at all times and, while HDR_VALID = 1, every field of the record and the views that
R137 to R139 derive from it, the vendor view with the legacy code as the era flag; all as of the start of the step (R33). That a
consumer's reads are part of a step's input is the model's choice (log 11), and so is that the RAM view carries both the number of
R133 and the word of R134 (log 16). -/
def Obligations.RecordBusCarriesTheRecord : Prop :=
  (∀ (i : StepInput) (rest : List StepInput) (s t : State), cycle i rest s = .next t →
    probeAll s.hdu i.probes = .next t.out.probes) ∧
  ∀ u : HeaderUnit,
    probe u .imgValid = .next (.bit u.imgValid) ∧ probe u .imgLen = .next (.count u.imgLen) ∧
    probe u .hdrValid = .next (.bit u.hdrValid) ∧
    ∀ h, u.hdrValid = true → u.hdr = some h →
      probe u .entryPoint = .next (.bytes h.entryPoint) ∧ probe u .logo = .next (.bytes h.logo) ∧
      probe u .title = .next (.bytes h.title) ∧ probe u .modernVendorCode = .next (.word h.modernVendorCode) ∧
      probe u .sgbFlag = .next (.byte h.sgbFlag) ∧ probe u .cartType = .next (.byte h.cartType) ∧
      probe u .romSizeCode = .next (.byte h.romSizeCode) ∧ probe u .ramSizeCode = .next (.byte h.ramSizeCode) ∧
      probe u .destinationCode = .next (.byte h.destinationCode) ∧
      probe u .legacyVendorCode = .next (.byte h.legacyVendorCode) ∧ probe u .version = .next (.byte h.version) ∧
      probe u .headerChecksum = .next (.byte h.headerChecksum) ∧ probe u .globalChecksum = .next (.word h.globalChecksum) ∧
      probe u .vendorView =
        .next (.named (resolve h.legacyVendorCode h.legacyVendorCode h.modernVendorCode).1
          (resolve h.legacyVendorCode h.legacyVendorCode h.modernVendorCode).2) ∧
      probe u .cartView = .next (.named (cartname h.cartType).1 (cartname h.cartType).2) ∧
      probe u .romView = .next (.rom (romsize h.romSizeCode) (romstr (romsize h.romSizeCode))) ∧
      probe u .ramView =
        .next (.ram (ramsize h.ramSizeCode)
          (if (ramsize h.ramSizeCode).valid then BitVec.ofInt 16 (ramsize h.ramSizeCode).kib else 0)) ∧ probe u .titleView = .next (.bytes (titleView h))

/-- While HDR_VALID = 0 every field of the record and every derived view holds no value: reading one is a model fault (R30, R14);
an image byte is one at or beyond IMG_LEN or while IMG_VALID = 0 (R28). -/
def Obligations.LinesWithoutAValueFault : Prop :=
  ∀ u : HeaderUnit,
    (u.hdrValid = false → ∀ p ∈ [Probe.entryPoint, .logo, .title, .modernVendorCode, .sgbFlag, .cartType, .romSizeCode,
        .ramSizeCode, .destinationCode, .legacyVendorCode, .version, .headerChecksum, .globalChecksum, .vendorView, .cartView,
        .romView, .ramView, .titleView],
      probe u p = .fault .recordHoldsNoValue) ∧
    ∀ k, (u.imgValid = false ∨ u.imgLen ≤ k) → probe u (.imageByte k) = .fault (.imageByteHoldsNoValue k)

/-- The title view of a title with a NUL is its bytes before the first NUL, and a latched title always has one (R140). -/
def Obligations.TitleViewEndsAtTheFirstNul : Prop :=
  (∀ (h : HeaderRecord) (j : Nat), h.title[j]? = some 0x00 → (∀ i, i < j → h.title[i]? ≠ some 0x00) →
    titleView h = h.title.take j) ∧
  ∀ s : State, s.Inv → ∀ h, s.hdu.hdr = some h →
    ∃ j, j < 16 ∧ h.title[j]? = some 0x00 ∧ ∀ i, i < j → h.title[i]? ≠ some 0x00

/-- The presentation of a record, in its order, and its raw vendor code by the era (R141, R142). -/
def Obligations.PresentationKeepsItsOrder : Prop :=
  ∀ h : HeaderRecord,
    presentedText h = Config.render (present h) ∧
    present h =
      { title := titleView h, version := h.version,
        vendorName := (resolve h.legacyVendorCode h.legacyVendorCode h.modernVendorCode).2,
        rawVendor := rawVendor h, cartName := (cartname h.cartType).2, cartType := h.cartType,
        romSize := romstr (romsize h.romSizeCode) } ∧
    (h.legacyVendorCode = 0x33 →
      rawVendor h = .modern (h.modernVendorCode.extractLsb' 8 8) (h.modernVendorCode.extractLsb' 0 8)) ∧
    (h.legacyVendorCode ≠ 0x33 → rawVendor h = .legacy h.legacyVendorCode)

/-! ## Errors -/

/-- The status codes of R201: the five numbers, none of them 5, 6 or 7, and who answers each: a command InvalidSelector only if
it is a register command with a selector, OutOfBounds only if it is DECODE or IMGRD, IllegalCommand never, since only the admission
of a word does, and IoError never, since only the host load does. -/
def Obligations.StatusCodesAsNumbered : Prop :=
  statusCode .ok = 0 ∧ statusCode .invalidSelector = 1 ∧ statusCode .outOfBounds = 2 ∧ statusCode .ioError = 3 ∧
  statusCode .illegalCommand = 4 ∧ (∀ e, (statusCode e).toNat < 5) ∧
  (∀ (i : Instr) (s t : State) (r : Response), exec i s = .next t → t.answer = some r →
    r.status ≠ .ioError ∧ r.status ≠ .illegalCommand ∧
    (r.status = .invalidSelector → i ≠ .reset ∧ i.ports ≠ [.dp]) ∧
    (r.status = .outOfBounds → i = .decode ∨ ∃ addr, i = .imgrd addr)) ∧
  (∀ (p : Port) (w : Command) (s t : State), perform p (some w) s = .next t →
    ∃ r, t.answer = some r ∧ r.status ≠ .ioError ∧ (r.status = .illegalCommand ↔ ∃ why, admission p w = .error why)) ∧
  ∀ l, (hostLoad l).2 = .ok ∨ (hostLoad l).2 = .ioError

/-- Whatever the command, a response with a status other than OK has every other field 0, and its command changed nothing
(R200). -/
def Obligations.ErrorsWriteNothing : Prop :=
  ∀ (p : Port) (w : Command) (s t : State) (r : Response), perform p (some w) s = .next t → t.answer = some r →
    r.status ≠ .ok → r = failed r.status ∧ t = { s with answer := some r }

/-- A port's response, and what its command writes, depend on the state at the start and on that port's own word, not on what the
other ports carry (R200, R206, R223). -/
def Obligations.PortsAnswerIndependently : Prop :=
  ∀ (i j : StepInput) (rest rest' : List StepInput) (s t t' : State), cycle i rest s = .next t → cycle j rest' s = .next t' →
    (i.rp0 = j.rp0 → t.out.rp0 = t'.out.rp0) ∧ (i.rp1 = j.rp1 → t.out.rp1 = t'.out.rp1) ∧
    (i.wp = j.wp → t.out.wp = t'.out.wp ∧ t.rfu = t'.rfu) ∧ (i.dp = j.dp → t.out.dp = t'.out.dp) ∧
    (i.dp = j.dp → i.host = j.host → t.hdu = t'.hdu ∧ t.out.host = t'.out.host) ∧
    (i.probes = j.probes → t.out.probes = t'.out.probes)

/-! ## The step -/

/-- A step whose next input is one word at one port, which decodes to a command of that port's class, is exec of that command:
around it the step takes the input off the driver's list, lets the port's own unit be written, and files the response under the
port (R223). -/
def Obligations.StepRunsTheDecodedCommand : Prop :=
  ∀ (s : State) (rest : List StepInput) (p : Port) (w : Command) (i : Instr),
    Presents s p w rest → decode w = .ok i → i.wellFormedAt p = true →
    step s = andThen (exec i s) fun t => .next
      { rfu := if p = .wp then t.rfu else s.rfu
        hdu := if p = .dp then t.hdu else s.hdu
        driver := rest
        answer := none
        out :=
          { rp0 := if p = .rp0 then t.answer.map readPart else none
            rp1 := if p = .rp1 then t.answer.map readPart else none
            wp := if p = .wp then t.answer.map writePart else none
            dp := if p = .dp then t.answer else none
            host := none
            probes := [] } }

/-- A word placed by withFetchWord is presented alone in the very next step, at a port of its command's class. -/
def Obligations.PlacedWordIsPresentedNext : Prop :=
  ∀ (s : State) (w : Command) (i : Instr), decode w = .ok i →
    decodeTableWord 40 w.toNat = some i ∧
    ∃ p, i.wellFormedAt p = true ∧ Presents (s.withFetchWord 40 w.toNat) p w s.driver ∧
      (s.withFetchWord 40 w.toNat).withDriver s.driver = s

/-- A step, in which every port reads the state at its start, is the same as performing the ports one after another, the two read
ports before the write port and the host load last: "their order of application does not matter" (R223, R226). -/
def Obligations.StepEqualsPortsInSequence : Prop :=
  ∀ (i : StepInput) (rest : List StepInput) (s t : State), cycle i rest s = .next t →
    ∃ s1 s2 s3 s4, perform .rp0 i.rp0 s = .next s1 ∧ perform .rp1 i.rp1 s1 = .next s2 ∧ perform .wp i.wp s2 = .next s3 ∧
      perform .dp i.dp s3 = .next s4 ∧ t.rfu = s4.rfu ∧ (i.host = none → t.hdu = s4.hdu) ∧
      (∀ l, i.host = some l → t.hdu = (hostLoad l).1 ∧ t.out.host = some (hostLoad l).2 ∧ s4.hdu = s.hdu) ∧
      t.out.rp0 = s1.answer.map readPart ∧ t.out.rp1 = s2.answer.map readPart ∧ t.out.wp = s3.answer.map writePart ∧
      t.out.dp = s4.answer

/-- A read port is answered from the state at the start of its step, whatever the write port does in that step; so a read in the
step that writes the same pair answers the old value, and a read in the next step the new one (R224). -/
def Obligations.ReadsSeeTheStartOfTheirStep : Prop :=
  (∀ (i : StepInput) (rest : List StepInput) (s t : State), cycle i rest s = .next t → ReadsTheStart i s t) ∧
  ∀ (s : State) (p : BitVec 4) (v old : Word) (rest : List StepInput), p.toNat < 4 →
    Answers (.getpair p) s (answered old) →
    s.driver = { rp0 := some (encode (.getpair p)), rp1 := some (encode (.getpair p)), wp := some (encode (.setpair p v)) } ::
      { rp0 := some (encode (.getpair p)) } :: rest →
    ∃ t u, step s = .next t ∧ t.out.rp0 = some { status := .ok, data := old } ∧
      t.out.rp1 = some { status := .ok, data := old } ∧ t.out.wp = some .ok ∧
      step t = .next u ∧ u.out.rp0 = some { status := .ok, data := v }

/-- SETFLAGs in consecutive steps accumulate: each sees the result of the one before, on the same flag or another (R225). -/
def Obligations.SetflagsAccumulateOverSteps : Prop :=
  ∀ (s : State) (j k : BitVec 4) (b c : BitVec 1) (rest : List StepInput), j.toNat < 4 → k.toNat < 4 →
    s.driver = { wp := some (encode (.setflag j b)) } :: { wp := some (encode (.setflag k c)) } :: rest →
    ∃ t, Host.Core.run Sys2Proof.core 2 s = .next t ∧
      ∀ n, n < 8 → t.rfu.f.getLsbD n =
        if n = 7 - k.toNat then c == 1 else if n = 7 - j.toNat then b == 1 else s.rfu.f.getLsbD n

/-- The two units share no state and have no runtime dependency: what the register-file ports answer and leave does not depend on
the header decoder unit, and the other way round (R2). -/
def Obligations.UnitsShareNoState : Prop :=
  ∀ (i : StepInput) (rest : List StepInput) (s s' t t' : State), cycle i rest s = .next t → cycle i rest s' = .next t' →
    (s.rfu = s'.rfu →
      t.rfu = t'.rfu ∧ t.out.rp0 = t'.out.rp0 ∧ t.out.rp1 = t'.out.rp1 ∧ t.out.wp = t'.out.wp) ∧
    (s.hdu = s'.hdu →
      t.hdu = t'.hdu ∧ t.out.dp = t'.out.dp ∧ t.out.host = t'.out.host ∧ t.out.probes = t'.out.probes)

/-! ## The host load -/

/-- A host load has one of two outcomes (R57): with at most IMG_MAX bytes the store holds exactly those bytes and the host is
told success; otherwise no byte holds a value and the host is told IoError. Either way HDR_VALID is 0 and no register changes. -/
def Obligations.HostLoadReplacesTheImage : Prop :=
  ∀ (s : State) (rest : List StepInput),
    (∀ bytes : List Byte, bytes.length ≤ imgMax → s.driver = { host := some (.load bytes) } :: rest →
      ∃ t, step s = .next t ∧ t.out.host = some .ok ∧ t.rfu = s.rfu ∧ t.hdu.imgLen = bytes.length ∧
        t.hdu.imgValid = true ∧ t.hdu.hdrValid = false ∧ t.hdu.hdr = none ∧
        ∀ k, Memory.read t.hdu.img k = bytes[k]?) ∧
    (∀ l, (l = .loadFail ∨ ∃ bytes : List Byte, imgMax < bytes.length ∧ l = .load bytes) →
      s.driver = { host := some l } :: rest →
      ∃ t, step s = .next t ∧ t.out.host = some .ioError ∧ t.rfu = s.rfu ∧ t.hdu.imgLen = 0 ∧ t.hdu.imgValid = false ∧
        t.hdu.hdrValid = false ∧ t.hdu.hdr = none ∧ ∀ k, Memory.read t.hdu.img k = none)

/-- A step with both a host load and a word on the decoder port has no move; the write port may share a step with a host load, and
so may the read ports wherever they can be read (R228, R58). That "no move" is a named fault, for an illegal word too, is the
model's reading (log 5). The second part speaks of steps in which no consumer reads; a consumer's read of no value is a fault of its
own (log 11). -/
def Obligations.HostLoadExcludesTheDecoderPort : Prop :=
  ∀ (s : State) (i : StepInput) (rest : List StepInput) (l : HostLoad), s.driver = i :: rest → i.host = some l →
    (∀ w, i.dp = some w → step s = .fault .hostLoadWithDecoderCommand) ∧
    (i.dp = none → i.probes = [] → (∃ a, perform .rp0 i.rp0 s = .next a) → (∃ b, perform .rp1 i.rp1 s = .next b) →
      ∃ t, step s = .next t ∧ t.hdu = (hostLoad l).1 ∧ t.out.host = some (hostLoad l).2)

/-- RESET may come again at any step and leaves the header decoder unit alone; a host load clears HDR_VALID, whatever its outcome
(R222, R38). -/
def Obligations.ResetAndLoadMayComeAgain : Prop :=
  (∀ (s : State) (rest : List StepInput), Presents s .wp 0x1000000000 rest →
    ∃ t, step s = .next t ∧ t.rfu = State.reset.rfu ∧ t.hdu = s.hdu ∧ t.out.wp = some .ok) ∧
  (∀ (s : State) (rest : List StepInput) (l : HostLoad), s.driver = { host := some l } :: rest →
    ∃ t, step s = .next t ∧ t.rfu = s.rfu ∧ t.hdu.hdrValid = false) ∧
  ∀ (s t : State) (i : StepInput) (rest : List StepInput) (l : HostLoad), s.driver = i :: rest → i.host = some l →
    step s = .next t → t.hdu.hdrValid = false

/-! ## Start states and invariants -/

/-- The machine right after reset: the cells of R36, the header decoder unit of R38, nothing presented and nothing answered; and
power-on followed by RESET comes to it. That reset is these two together is the model's reading (log 1). -/
def Obligations.ResetStateIsTheDocumentedOne : Prop :=
  State.reset.rfu =
    { a := 0x01, b := 0x00, c := 0x00, d := 0x00, e := 0x00, f := 0x00, h := 0x00, l := 0x00, pc := 0x0100, sp := 0x0000,
      held := Held.all } ∧
  State.reset.hdu.imgValid = false ∧ State.reset.hdu.imgLen = 0 ∧ State.reset.hdu.hdrValid = false ∧
  State.reset.hdu.hdr = none ∧ (∀ k, Memory.read State.reset.hdu.img k = none) ∧
  State.powerOn.hdu = State.reset.hdu ∧ State.powerOn.rfu.held = Held.none ∧
  ∃ t, step { State.powerOn with driver := [presentAlone .wp 0x1000000000] } = .next t ∧
    t.rfu = State.reset.rfu ∧ t.hdu = State.reset.hdu ∧ t.driver = []

/-- The invariant holds right after reset and at power-on. -/
def Obligations.StartStatesMeetTheInvariant : Prop :=
  State.reset.Inv ∧ State.powerOn.Inv ∧ Memory.wf State.reset.hdu.img = true ∧ State.reset.rfu.initialised = true

/-- Every step from a state that meets the invariant leaves one that meets it: the image holds exactly the bytes below IMG_LEN,
within IMG_MAX; HDR_VALID says whether the latch holds a record; that record was decoded from the image now in the store, whose
title is the normalised one; bits that hold no value stand at 0 (R28, R30, R103). -/
def Obligations.StepKeepsTheInvariant : Prop := ∀ s t : State, s.Inv → step s = .next t → t.Inv

/-- Every step keeps the image in its canonical form, from any state that has it. -/
def Obligations.StepKeepsTheImageCanonical : Prop :=
  ∀ s t : State, Memory.wf s.hdu.img = true → step s = .next t → Memory.wf t.hdu.img = true

/-- Once every cell holds a value, every step leaves every cell holding one (R37). -/
def Obligations.StepKeepsEveryCellHeld : Prop :=
  ∀ s t : State, s.rfu.initialised = true → step s = .next t → t.rfu.initialised = true

/-- From a state that meets the invariant, a step whose input keeps the duties of the driver, the host and the consumer (R221, R228)
goes on, and every port that was presented a command answers in that step, whatever the words are (R217, R230). That the inputs
stand in a list, of which the step takes the head, is the model's choice (log 3), and so are the consumer's reads (log 11). -/
def Obligations.DutifulStepCompletes : Prop :=
  ∀ s : State, s.Inv → s.dutiful = true →
    ∃ t, step s = .next t ∧ t.driver = s.driver.tail ∧
      t.out.rp0.isSome = (s.driver.headD StepInput.idle).rp0.isSome ∧
      t.out.rp1.isSome = (s.driver.headD StepInput.idle).rp1.isSome ∧
      t.out.wp.isSome = (s.driver.headD StepInput.idle).wp.isSome ∧
      t.out.dp.isSome = (s.driver.headD StepInput.idle).dp.isSome ∧
      t.out.host.isSome = (s.driver.headD StepInput.idle).host.isSome ∧
      t.out.probes.length = (s.driver.headD StepInput.idle).probes.length

/-- A whole run whose every input keeps the duties, from reset, stops nowhere: as long as the driver never presents a host load
with a decoder command and the consumer reads nothing, the machine takes any number of steps (R217). -/
def Obligations.RunsFromResetNeverStop : Prop :=
  ∀ (inputs : List StepInput) (k : Nat), (∀ i ∈ inputs, i.wellFormed = true ∧ i.probes = []) →
    SafeRun k (State.reset.withDriver inputs)

/-! ## The written form -/

/-- The spec's own written steps assemble to the words it gives them (R83, 95_test_vectors.md). -/
def Obligations.WrittenStepsAssembleToTheirWords : Prop :=
  Assembler.assemble "WP: RESET" = some { wp := some 0x1000000000 } ∧
  Assembler.assemble "RP0: GETPAIR BC" = some { rp0 := some 0x2100000000 } ∧
  Assembler.assemble "WP: SETPAIR BC, 0xBEEF" = some { wp := some 0x310000BEEF } ∧
  Assembler.assemble "RP1: GETFLAG C" = some { rp1 := some 0x4300000000 } ∧
  Assembler.assemble "WP: SETFLAG C, 1" = some { wp := some 0x5300000001 } ∧
  Assembler.assemble "RP1: GETR8 l" = some { rp1 := some 0x6700000000 } ∧
  Assembler.assemble "WP: SETR8 h, 0x12" = some { wp := some 0x7600000012 } ∧
  Assembler.assemble "RP1: GETR16 pc" = some { rp1 := some 0x8000000000 } ∧
  Assembler.assemble "WP: SETR16 sp, 0xFFFE" = some { wp := some 0x910000FFFE } ∧
  Assembler.assemble "DP: DECODE" = some { dp := some 0xA000000000 } ∧
  Assembler.assemble "DP: VENDOR 0x33, 0x33, \"78\"" = some { dp := some 0xB033333738 } ∧
  Assembler.assemble "DP: CARTNAME 0xEE" = some { dp := some 0xC0EE000000 } ∧
  Assembler.assemble "DP: ROMSIZE 0x05" = some { dp := some 0xD005000000 } ∧
  Assembler.assemble "DP: RAMSIZE 0x03" = some { dp := some 0xE003000000 } ∧
  Assembler.assemble "DP: IMGRD 0x012345" = some { dp := some 0xF001002345 } ∧
  Assembler.assemble "RP0: GETPAIR 7" = some { rp0 := some 0x2700000000 } ∧
  Assembler.assemble "HOST: LOADFAIL" = some { host := some .loadFail }

/-- Whatever a text assembles to is a step of the block, and every word it presents is a command of the table (R83, R84). -/
def Obligations.AssembledWordsAreCommands : Prop :=
  ∀ (text : String) (i : StepInput), Assembler.assemble text = some i →
    i.wellFormed = true ∧
    ∀ w, (i.rp0 = some w ∨ i.rp1 = some w ∨ i.wp = some w ∨ i.dp = some w) → ∃ c, decode w = .ok c ∧ encode c = w
end

