-- ==== Sys2Proof/Laws/Decode.lean ====
section
/-! SUPPORT. The command word: its fields, when a word selects a row, and what the decoder then reads. -/

namespace Sys2Proof

/-- The fields of a word built from fields. -/
@[simp] theorem Fields.ofWord_toWord (x : Fields) : Fields.ofWord x.toWord = x := by
  cases x
  simp only [Fields.ofWord, Fields.toWord, Fields.mk.injEq]
  refine ⟨?_, ?_, ?_, ?_, ?_⟩ <;> ext i hi <;> rw [BitVec.getElem_extractLsb'] <;> simp only [BitVec.getLsbD_append] <;>
    interval_cases i <;> rfl

/-- The word of its own fields. -/
@[simp] theorem Fields.toWord_ofWord (w : Command) : (Fields.ofWord w).toWord = w := by
  ext i hi
  simp only [Fields.ofWord, Fields.toWord, ← BitVec.getLsbD_eq_getElem, BitVec.getLsbD_append, BitVec.getLsbD_extractLsb']
  interval_cases i <;> simp

/-- A word is determined by its fields. -/
theorem Fields.ofWord_inj {v w : Command} : Fields.ofWord v = Fields.ofWord w ↔ v = w := by
  constructor
  · intro h
    rw [← Fields.toWord_ofWord v, h, Fields.toWord_ofWord]
  · rintro rfl; rfl

/-- The fields of a masked word are the masked fields. -/
theorem Fields.ofWord_and (v w : Command) :
    Fields.ofWord (v &&& w) =
      { op := (Fields.ofWord v).op &&& (Fields.ofWord w).op, sel := (Fields.ofWord v).sel &&& (Fields.ofWord w).sel,
        opa := (Fields.ofWord v).opa &&& (Fields.ofWord w).opa, opb := (Fields.ofWord v).opb &&& (Fields.ofWord w).opb,
        opd := (Fields.ofWord v).opd &&& (Fields.ofWord w).opd } := by
  simp [Fields.ofWord, BitVec.extractLsb'_and]

/-- A word selects a row when each of its fields, masked, is the row's (R75). -/
theorem Row.selects_iff (r : Row) (w : Command) :
    r.selects w = true ↔
      (Fields.ofWord w).op &&& (Fields.ofWord r.mask).op = (Fields.ofWord r.pattern).op ∧
      (Fields.ofWord w).sel &&& (Fields.ofWord r.mask).sel = (Fields.ofWord r.pattern).sel ∧
      (Fields.ofWord w).opa &&& (Fields.ofWord r.mask).opa = (Fields.ofWord r.pattern).opa ∧
      (Fields.ofWord w).opb &&& (Fields.ofWord r.mask).opb = (Fields.ofWord r.pattern).opb ∧
      (Fields.ofWord w).opd &&& (Fields.ofWord r.mask).opd = (Fields.ofWord r.pattern).opd := by
  simp only [Row.selects, beq_iff_eq]
  rw [← Fields.ofWord_inj, Fields.ofWord_and]
  simp only [Fields.ofWord, Fields.mk.injEq]

/-- Every row's mask covers OP (R75). -/
theorem rows_mask_op (r : Row) (h : r ∈ rows) : (Fields.ofWord r.mask).op = 0xF := by
  simp only [rows, registerRows, decoderRows, List.cons_append, List.nil_append, List.mem_cons, List.not_mem_nil, or_false] at h
  rcases h with rfl | rfl | rfl | rfl | rfl | rfl | rfl | rfl | rfl | rfl | rfl | rfl | rfl | rfl | rfl <;> rfl

/-- A word that selects a row has the row's OP (R75). -/
theorem Row.selects_op (r : Row) (h : r ∈ rows) (w : Command) (hs : r.selects w = true) :
    (Fields.ofWord w).op = (Fields.ofWord r.pattern).op := by
  have h1 := ((Row.selects_iff r w).mp hs).1
  rw [rows_mask_op r h] at h1
  rw [← h1]
  exact (BitVec.and_allOnes (x := (Fields.ofWord w).op)).symm

/-- Each row has an OP of its own (R75). -/
theorem rows_op_nodup : (rows.map fun r => (Fields.ofWord r.pattern).op).Nodup := by decide

/-- The first row found is the row itself, where the rows' OPs differ. -/
theorem find_selects (l : List Row) (hn : (l.map fun r => (Fields.ofWord r.pattern).op).Nodup) (w : Command)
    (ho : ∀ r ∈ l, r.selects w = true → (Fields.ofWord w).op = (Fields.ofWord r.pattern).op) (r : Row) (h : r ∈ l)
    (hs : r.selects w = true) : l.find? (fun r => r.selects w) = some r := by
  induction l with
  | nil => cases h
  | cons x l ih =>
    simp only [List.map_cons, List.nodup_cons, List.mem_map, not_exists, not_and] at hn
    rcases List.mem_cons.mp h with rfl | h
    · simp [hs]
    · have hx : x.selects w = false := by
        by_contra hx
        have hx := ho x (List.mem_cons_self ..) (by simpa using hx)
        exact hn.1 r h ((ho r (List.mem_cons_of_mem _ h) hs).symm.trans hx)
      rw [List.find?_cons_of_neg (by simp [hx])]
      exact ih hn.2 (fun r hr => ho r (List.mem_cons_of_mem _ hr)) h

/-- The decoder reads the row that the word selects. -/
theorem decode_of_selects (r : Row) (h : r ∈ rows) (w : Command) (hs : r.selects w = true) :
    decode w = .ok (r.assemble (Fields.ofWord w)) := by
  rw [decode, find_selects rows rows_op_nodup w (fun r hr => Row.selects_op r hr w) r h hs]

/-- What the decoder answers: a command only of a row that the word selects. -/
theorem decode_ok (w : Command) (i : Instr) (h : decode w = .ok i) :
    ∃ r ∈ rows, r.selects w = true ∧ i = r.assemble (Fields.ofWord w) := by
  unfold decode at h
  split at h
  · next r hr =>
    refine ⟨r, List.mem_of_find?_eq_some hr, by simpa using List.find?_some hr, ?_⟩
    cases h; rfl
  · split at h <;> cases h

/-- The decoder refuses exactly the words that no row selects (R79). -/
theorem decode_error_iff (w : Command) : (∃ e, decode w = .error e) ↔ ∀ r ∈ rows, r.selects w = false := by
  constructor
  · rintro ⟨e, he⟩ r hr
    by_contra hs
    rw [decode_of_selects r hr w (by simpa using hs)] at he
    cases he
  · intro h
    have : rows.find? (fun r => r.selects w) = none := by
      rw [List.find?_eq_none]
      intro r hr
      simp [h r hr]
    by_cases h0 : (Fields.ofWord w).op = 0
    · exact ⟨.reservedOpcode, by simp only [decode, this, if_pos h0]⟩
    · exact ⟨.mustBeZero, by simp only [decode, this, if_neg h0]⟩

/-- Rows with one OP are one row. -/
theorem row_of_op (r q : Row) (hr : r ∈ rows) (hq : q ∈ rows)
    (h : (Fields.ofWord q.pattern).op = (Fields.ofWord r.pattern).op) : q = r :=
  List.inj_on_of_nodup_map rows_op_nodup hq hr h

/-- A word with a row's OP that the row does not select has a must-be-zero bit set (R79 (b)). -/
theorem decode_mustBeZero (r : Row) (hr : r ∈ rows) (w : Command)
    (ho : (Fields.ofWord w).op = (Fields.ofWord r.pattern).op) (hs : r.selects w = false) :
    decode w = .error .mustBeZero := by
  have hf : rows.find? (fun q => q.selects w) = none := by
    rw [List.find?_eq_none]
    intro q hq hqs
    have := row_of_op r q hr hq ((Row.selects_op q hq w hqs).symm.trans ho)
    subst this
    rw [hs] at hqs
    cases hqs
  have h0 : (Fields.ofWord w).op ≠ 0 := by
    rw [ho]
    have : ∀ x ∈ rows.map fun r => (Fields.ofWord r.pattern).op, x ≠ 0 := by decide
    exact this _ (List.mem_map_of_mem hr)
  simp only [decode, hf, if_neg h0]

/-- A word with OP 0 is reserved (R79 (a)). -/
theorem decode_reserved (w : Command) (h : (Fields.ofWord w).op = 0) : decode w = .error .reservedOpcode := by
  have hf : rows.find? (fun q => q.selects w) = none := by
    rw [List.find?_eq_none]
    intro q hq hqs
    have := Row.selects_op q hq w hqs
    rw [h] at this
    have hne : ∀ x ∈ rows.map fun r => (Fields.ofWord r.pattern).op, x ≠ 0 := by decide
    exact hne _ (List.mem_map_of_mem hq) this.symm
  simp only [decode, hf, if_pos h]

end Sys2Proof
end

