-- ==== Sys2Proof/Laws/Memory.lean ====
section
/-! SUPPORT. The image store: reads after writes, the canonical form, which addresses are listed. -/

namespace Sys2Proof.Machine

open Sys2Proof

@[simp] theorem Memory.read_nil (k : Nat) : Memory.read [] k = none := rfl

theorem Memory.read_write_same (m : List Host.Cell) (k : Nat) (v : Byte) : Memory.read (Memory.write m k v) k = some v := by
  induction m with
  | nil => simp [Memory.write, Memory.read]
  | cons c m ih =>
    obtain ⟨a, b⟩ := c
    simp only [Memory.write]
    split
    · simp [Memory.read]
    · split
      · simp [Memory.read]
      · next h => simp [Memory.read, Ne.symm h, ih]

theorem Memory.read_write_other (m : List Host.Cell) (k j : Nat) (v : Byte) (h : j ≠ k) :
    Memory.read (Memory.write m k v) j = Memory.read m j := by
  induction m with
  | nil => simp [Memory.write, Memory.read, Memory.unlisted, Ne.symm h]
  | cons c m ih =>
    obtain ⟨a, b⟩ := c
    simp only [Memory.write]
    split
    · simp [Memory.read, Ne.symm h]
    · split
      · next hk => subst hk; simp [Memory.read, Ne.symm h]
      · simp [Memory.read, ih]

/-- A read after a write. -/
theorem Memory.read_write (m : List Host.Cell) (k j : Nat) (v : Byte) :
    Memory.read (Memory.write m k v) j = if j = k then some v else Memory.read m j := by
  split
  · next h => rw [h, Memory.read_write_same]
  · next h => exact Memory.read_write_other m k j v h

@[simp] theorem Memory.fill_nil (m : List Host.Cell) (v : Byte) : Memory.fill m [] v = m := rfl

@[simp] theorem Memory.fill_cons (m : List Host.Cell) (k : Nat) (ks : List Nat) (v : Byte) :
    Memory.fill m (k :: ks) v = Memory.fill (Memory.write m k v) ks v := rfl

/-- A read after filling some addresses. -/
theorem Memory.read_fill (m : List Host.Cell) (ks : List Nat) (j : Nat) (v : Byte) :
    Memory.read (Memory.fill m ks v) j = if j ∈ ks then some v else Memory.read m j := by
  induction ks generalizing m with
  | nil => simp
  | cons k ks ih =>
    rw [Memory.fill_cons, ih, Memory.read_write]
    by_cases h1 : j ∈ ks <;> by_cases h2 : j = k <;> simp [h1, h2]

/-- The canonical form as a pairwise order of the addresses. -/
theorem Memory.wf_iff (m : List Host.Cell) : Memory.wf m = true ↔ (m.map Prod.fst).Pairwise (· < ·) := by
  induction m with
  | nil => simp [Memory.wf]
  | cons c m ih =>
    cases m with
    | nil => simp [Memory.wf]
    | cons d m =>
      simp only [Memory.wf, Bool.and_eq_true, decide_eq_true_eq, ih, List.map_cons, List.pairwise_cons]
      constructor
      · rintro ⟨h1, h2, h3⟩
        refine ⟨?_, h2, h3⟩
        intro x hx
        rcases List.mem_cons.mp hx with rfl | hx
        · exact h1
        · exact Nat.lt_trans h1 (h2 x hx)
      · rintro ⟨h1, h2, h3⟩
        exact ⟨h1 _ (List.mem_cons_self ..), h2, h3⟩

theorem Memory.mem_write (m : List Host.Cell) (k x : Nat) (v : Byte) (h : x ∈ (Memory.write m k v).map Prod.fst) :
    x = k ∨ x ∈ m.map Prod.fst := by
  induction m with
  | nil => simpa [Memory.write] using h
  | cons c m ih =>
    obtain ⟨a, b⟩ := c
    simp only [Memory.write] at h
    split at h
    · simpa using h
    · split at h
      · simp only [List.map_cons, List.mem_cons] at h ⊢
        tauto
      · simp only [List.map_cons, List.mem_cons] at h ⊢
        rcases h with h | h
        · tauto
        · have := ih h
          tauto

/-- A write keeps the canonical form. -/
theorem Memory.wf_write (m : List Host.Cell) (k : Nat) (v : Byte) (h : Memory.wf m = true) :
    Memory.wf (Memory.write m k v) = true := by
  rw [Memory.wf_iff] at h ⊢
  induction m with
  | nil => simp [Memory.write]
  | cons c m ih =>
    obtain ⟨a, b⟩ := c
    simp only [List.map_cons, List.pairwise_cons] at h
    obtain ⟨h1, h2⟩ := h
    simp only [Memory.write]
    split
    · next hk =>
      simp only [List.map_cons, List.pairwise_cons, List.mem_cons]
      refine ⟨?_, h1, h2⟩
      rintro x (rfl | hx)
      · exact hk
      · exact Nat.lt_trans hk (h1 x hx)
    · split
      · next hk => subst hk; simp only [List.map_cons, List.pairwise_cons]; exact ⟨h1, h2⟩
      · next h3 h4 =>
        simp only [List.map_cons, List.pairwise_cons]
        refine ⟨?_, ih h2⟩
        intro x hx
        rcases Memory.mem_write m k x v hx with rfl | hx
        · omega
        · exact h1 x hx

/-- Filling keeps the canonical form. -/
theorem Memory.wf_fill (m : List Host.Cell) (ks : List Nat) (v : Byte) (h : Memory.wf m = true) :
    Memory.wf (Memory.fill m ks v) = true := by
  induction ks generalizing m with
  | nil => exact h
  | cons k ks ih => exact ih _ (Memory.wf_write m k v h)

/-- The addresses of bytes laid out from k on. -/
theorem Memory.ofBytes_addresses (bs : List Byte) (k : Nat) :
    (Memory.ofBytes k bs).map Prod.fst = List.range' k bs.length := by
  induction bs generalizing k with
  | nil => rfl
  | cons b bs ih => simp [Memory.ofBytes, ih, List.range'_succ]

/-- Bytes laid out in order are in the canonical form. -/
theorem Memory.wf_ofBytes (bs : List Byte) (k : Nat) : Memory.wf (Memory.ofBytes k bs) = true := by
  rw [Memory.wf_iff, Memory.ofBytes_addresses]
  exact List.pairwise_lt_range' ..

/-- Byte j of what was laid out from k on. -/
theorem Memory.read_ofBytes (bs : List Byte) (k j : Nat) :
    Memory.read (Memory.ofBytes k bs) j = if k ≤ j then bs[j - k]? else none := by
  induction bs generalizing k with
  | nil => simp [Memory.ofBytes]
  | cons b bs ih =>
    simp only [Memory.ofBytes, Memory.read, ih]
    rcases Nat.lt_trichotomy k j with h | h | h
    · have h1 : j - k = (j - (k + 1)) + 1 := by omega
      simp [Nat.ne_of_lt h, Nat.le_of_lt h, Nat.succ_le_of_lt h, h1]
    · subst h; simp
    · simp [Nat.ne_of_gt h, Nat.not_le.mpr h, Nat.not_le.mpr (Nat.lt_succ_of_lt h)]

/-- A write at a listed address of a canonical image lists no new address. -/
theorem Memory.addresses_write (m : List Host.Cell) (k : Nat) (v : Byte) (hw : Memory.wf m = true)
    (hk : k ∈ m.map Prod.fst) : (Memory.write m k v).map Prod.fst = m.map Prod.fst := by
  rw [Memory.wf_iff] at hw
  induction m with
  | nil => simp at hk
  | cons c m ih =>
    obtain ⟨a, b⟩ := c
    simp only [List.map_cons, List.pairwise_cons, List.mem_cons] at hw hk
    simp only [Memory.write]
    split
    · next h =>
      rcases hk with hk | hk
      · omega
      · have := hw.1 k hk
        omega
    · split
      · next h => simp [h]
      · next h =>
        rcases hk with hk | hk
        · exact absurd hk h
        · simp [ih hw.2 hk]

/-- Filling listed addresses of a canonical image lists no new address. -/
theorem Memory.addresses_fill (m : List Host.Cell) (ks : List Nat) (v : Byte) (hw : Memory.wf m = true)
    (hk : ∀ k ∈ ks, k ∈ m.map Prod.fst) : (Memory.fill m ks v).map Prod.fst = m.map Prod.fst := by
  induction ks generalizing m with
  | nil => rfl
  | cons k ks ih =>
    have h := Memory.addresses_write m k v hw (hk k (List.mem_cons_self ..))
    rw [Memory.fill_cons, ih _ (Memory.wf_write m k v hw), h]
    intro j hj
    rw [h]
    exact hk j (List.mem_cons_of_mem _ hj)

/-- An address holds a value exactly when it is listed. -/
theorem Memory.read_isSome (m : List Host.Cell) (k : Nat) : (Memory.read m k).isSome = true ↔ k ∈ m.map Prod.fst := by
  induction m with
  | nil => simp
  | cons c m ih =>
    obtain ⟨a, b⟩ := c
    by_cases h : a = k
    · simp [Memory.read, h]
    · simp [Memory.read, h, ih, Ne.symm h]

/-- An image that lists the addresses below n is in the canonical form. -/
theorem Memory.wf_of_addresses (m : List Host.Cell) (n : Nat) (h : m.map Prod.fst = List.range n) : Memory.wf m = true := by
  rw [Memory.wf_iff, h]
  exact List.pairwise_lt_range ..

/-- Bytes read one by one. -/
theorem Memory.bytes_eq (m : List Host.Cell) (k n : Nat) (g : Nat → Byte)
    (h : ∀ i, i < n → Memory.read m (k + i) = some (g i)) : Memory.bytes m k n = some ((List.range n).map g) := by
  induction n generalizing k g with
  | zero => rfl
  | succ n ih =>
    have h0 : Memory.read m k = some (g 0) := h 0 (Nat.succ_pos n)
    have h1 : Memory.bytes m (k + 1) n = some ((List.range n).map fun i => g (i + 1)) := by
      apply ih
      intro i hi
      have := h (i + 1) (Nat.succ_lt_succ hi)
      rwa [Nat.add_right_comm, Nat.add_assoc] at *
    simp [Memory.bytes, h0, h1, List.range_succ_eq_map, Function.comp_def]

/-- Two images that read alike on a range give the same bytes there. -/
theorem Memory.bytes_congr (m m' : List Host.Cell) (k n : Nat)
    (h : ∀ j, k ≤ j → j < k + n → Memory.read m' j = Memory.read m j) : Memory.bytes m' k n = Memory.bytes m k n := by
  induction n generalizing k with
  | zero => rfl
  | succ n ih =>
    have h0 := h k (Nat.le_refl k) (by omega)
    have h1 := ih (k + 1) (fun j hj hj' => h j (by omega) (by omega))
    simp [Memory.bytes, h0, h1]

/-- Bytes that were read have the length asked for. -/
theorem Memory.bytes_length (m : List Host.Cell) (k n : Nat) (bs : List Byte) (h : Memory.bytes m k n = some bs) :
    bs.length = n := by
  induction n generalizing k bs with
  | zero => simp [Memory.bytes] at h; simp [← h]
  | succ n ih =>
    simp only [Memory.bytes] at h
    split at h
    · next b bs' h0 h1 => cases h; simp [ih (k + 1) bs' h1]
    · cases h

/-- Byte i of bytes that were read is the byte at that address. -/
theorem Memory.bytes_getElem (m : List Host.Cell) (k n : Nat) (bs : List Byte) (h : Memory.bytes m k n = some bs) (i : Nat)
    (hi : i < n) : Memory.read m (k + i) = bs[i]? := by
  induction n generalizing k bs i with
  | zero => omega
  | succ n ih =>
    simp only [Memory.bytes] at h
    split at h
    · next b bs' h0 h1 =>
      cases h
      cases i with
      | zero => simpa using h0
      | succ i =>
        have := ih (k + 1) bs' h1 i (by omega)
        simpa [Nat.add_right_comm, Nat.add_assoc, Nat.add_comm 1 i] using this
    · cases h

end Sys2Proof.Machine
end

