-- ==== Sys2Proof/Laws/State.lean ====
section
/-! SUPPORT. One lemma per field per update of the state. -/

namespace Sys2Proof.Machine

open Sys2Proof

@[simp] theorem State.withAnswer_rfu (s : State) (r : Option Response) : (s.withAnswer r).rfu = s.rfu := rfl
@[simp] theorem State.withAnswer_hdu (s : State) (r : Option Response) : (s.withAnswer r).hdu = s.hdu := rfl
@[simp] theorem State.withAnswer_driver (s : State) (r : Option Response) : (s.withAnswer r).driver = s.driver := rfl
@[simp] theorem State.withAnswer_answer (s : State) (r : Option Response) : (s.withAnswer r).answer = r := rfl
@[simp] theorem State.withAnswer_out (s : State) (r : Option Response) : (s.withAnswer r).out = s.out := rfl

@[simp] theorem State.withRfu_rfu (s : State) (x : RegFile) : (s.withRfu x).rfu = x := rfl
@[simp] theorem State.withRfu_hdu (s : State) (x : RegFile) : (s.withRfu x).hdu = s.hdu := rfl
@[simp] theorem State.withRfu_driver (s : State) (x : RegFile) : (s.withRfu x).driver = s.driver := rfl
@[simp] theorem State.withRfu_answer (s : State) (x : RegFile) : (s.withRfu x).answer = s.answer := rfl
@[simp] theorem State.withRfu_out (s : State) (x : RegFile) : (s.withRfu x).out = s.out := rfl

@[simp] theorem State.withHdu_rfu (s : State) (u : HeaderUnit) : (s.withHdu u).rfu = s.rfu := rfl
@[simp] theorem State.withHdu_hdu (s : State) (u : HeaderUnit) : (s.withHdu u).hdu = u := rfl
@[simp] theorem State.withHdu_driver (s : State) (u : HeaderUnit) : (s.withHdu u).driver = s.driver := rfl
@[simp] theorem State.withHdu_answer (s : State) (u : HeaderUnit) : (s.withHdu u).answer = s.answer := rfl
@[simp] theorem State.withHdu_out (s : State) (u : HeaderUnit) : (s.withHdu u).out = s.out := rfl

@[simp] theorem State.withDriver_rfu (s : State) (d : List StepInput) : (s.withDriver d).rfu = s.rfu := rfl
@[simp] theorem State.withDriver_hdu (s : State) (d : List StepInput) : (s.withDriver d).hdu = s.hdu := rfl
@[simp] theorem State.withDriver_driver (s : State) (d : List StepInput) : (s.withDriver d).driver = d := rfl
@[simp] theorem State.withDriver_answer (s : State) (d : List StepInput) : (s.withDriver d).answer = s.answer := rfl
@[simp] theorem State.withDriver_out (s : State) (d : List StepInput) : (s.withDriver d).out = s.out := rfl

@[simp] theorem State.withOut_rfu (s : State) (o : StepOutput) : (s.withOut o).rfu = s.rfu := rfl
@[simp] theorem State.withOut_hdu (s : State) (o : StepOutput) : (s.withOut o).hdu = s.hdu := rfl
@[simp] theorem State.withOut_driver (s : State) (o : StepOutput) : (s.withOut o).driver = s.driver := rfl
@[simp] theorem State.withOut_answer (s : State) (o : StepOutput) : (s.withOut o).answer = s.answer := rfl
@[simp] theorem State.withOut_out (s : State) (o : StepOutput) : (s.withOut o).out = o := rfl

end Sys2Proof.Machine
end

