-- ==== Sys2Proof/Laws/Ops.lean ====
section
/-! SUPPORT. The shared operations: what each of them can do. -/

namespace Sys2Proof.Machine

open Sys2Proof

/-! ## Outcomes -/

@[simp] theorem andThen_next {α β : Type} (x : α) (k : α → Host.Outcome β Fault Refusal) : andThen (.next x) k = k x := rfl
@[simp] theorem andThen_fault {α β : Type} (e : Fault) (k : α → Host.Outcome β Fault Refusal) :
    andThen (.fault e) k = .fault e := rfl
@[simp] theorem andThen_refused {α β : Type} (r : Refusal) (k : α → Host.Outcome β Fault Refusal) :
    andThen (.refused r) k = .refused r := rfl

/-- A sequence goes on exactly where both of its parts do. -/
theorem andThen_eq_next {α β : Type} (o : Host.Outcome α Fault Refusal) (k : α → Host.Outcome β Fault Refusal) (y : β) :
    andThen o k = .next y ↔ ∃ x, o = .next x ∧ k x = .next y := by
  cases o <;> simp

@[simp] theorem orFault_some {α β : Type} (x : α) (e : Fault) (k : α → Host.Outcome β Fault Refusal) :
    orFault (some x) e k = k x := rfl
@[simp] theorem orFault_none {α β : Type} (e : Fault) (k : α → Host.Outcome β Fault Refusal) :
    orFault (none : Option α) e k = .fault e := rfl

/-- Using a value goes on exactly where there is one. -/
theorem orFault_eq_next {α β : Type} (v : Option α) (e : Fault) (k : α → Host.Outcome β Fault Refusal) (y : β) :
    orFault v e k = .next y ↔ ∃ x, v = some x ∧ k x = .next y := by
  cases v <;> simp

/-- All that raising an error can do (R200). -/
theorem raise_eq_next (e : Status) (s t : State) : raise e s = .next t ↔ t = s.withAnswer (some { status := e }) := by
  simp only [raise, respond, statusOnly, Host.Outcome.next.injEq]
  exact eq_comm

/-! ## The register cells -/

/-- A written 8-bit cell reads as what was written. -/
@[simp] theorem read8_write8_same (x : RegFile) (r : Reg8) (v : Byte) : read8 (write8 x r v) r = some v := by
  cases r <;> rfl

/-- A write of an 8-bit cell keeps every other 8-bit cell. -/
theorem read8_write8_other (x : RegFile) (r q : Reg8) (v : Byte) (h : q ≠ r) : read8 (write8 x r v) q = read8 x q := by
  cases r <;> cases q <;> first | rfl | exact absurd rfl h

/-- A write of an 8-bit cell keeps the 16-bit cells. -/
@[simp] theorem read16_write8 (x : RegFile) (r : Reg8) (q : Reg16) (v : Byte) : read16 (write8 x r v) q = read16 x q := by
  cases r <;> cases q <;> rfl

/-- A written 16-bit cell reads as what was written. -/
@[simp] theorem read16_write16_same (x : RegFile) (r : Reg16) (v : Word) : read16 (write16 x r v) r = some v := by
  cases r <;> rfl

/-- A write of a 16-bit cell keeps the other. -/
theorem read16_write16_other (x : RegFile) (r q : Reg16) (v : Word) (h : q ≠ r) : read16 (write16 x r v) q = read16 x q := by
  cases r <;> cases q <;> first | rfl | exact absurd rfl h

/-- A write of a 16-bit cell keeps the 8-bit cells. -/
@[simp] theorem read8_write16 (x : RegFile) (r : Reg16) (q : Reg8) (v : Word) : read8 (write16 x r v) q = read8 x q := by
  cases r <;> cases q <;> rfl

/-- A word is its two bytes. -/
@[simp] theorem hiByte_loByte (v : Word) : hiByte v ++ loByte v = v := by
  ext i hi
  simp only [hiByte, loByte, ← BitVec.getLsbD_eq_getElem, BitVec.getLsbD_append, BitVec.getLsbD_extractLsb']
  interval_cases i <;> simp

@[simp] theorem hiByte_append (x y : Byte) : hiByte (x ++ y) = x := by
  ext i hi
  simp only [hiByte, ← BitVec.getLsbD_eq_getElem, BitVec.getLsbD_append, BitVec.getLsbD_extractLsb']
  interval_cases i <;> simp

@[simp] theorem loByte_append (x y : Byte) : loByte (x ++ y) = y := by
  ext i hi
  simp only [loByte, ← BitVec.getLsbD_eq_getElem, BitVec.getLsbD_append, BitVec.getLsbD_extractLsb']
  interval_cases i <;> simp

/-- The two cells of a pair differ. -/
theorem pairHigh_ne_pairLow (p : Pair) : pairHigh p ≠ pairLow p := by cases p <;> decide

/-- A written pair reads as what was written (R163). -/
@[simp] theorem readPair_writePair_same (x : RegFile) (p : Pair) (v : Word) : readPair (writePair x p v) p = some v := by
  simp only [readPair, writePair]
  rw [read8_write8_same, read8_write8_other _ _ _ _ (pairHigh_ne_pairLow p), read8_write8_same]
  simp

/-- A write of a pair keeps every cell outside it (R163). -/
theorem read8_writePair_other (x : RegFile) (p : Pair) (q : Reg8) (v : Word) (h1 : q ≠ pairHigh p) (h2 : q ≠ pairLow p) :
    read8 (writePair x p v) q = read8 x q := by
  rw [writePair, read8_write8_other _ _ _ _ h2, read8_write8_other _ _ _ _ h1]

/-! ## Flags -/

/-- A flag after a write of a flag: the written one, or as before. -/
theorem flagOf_withFlag (f : Byte) (k j : Flag) (b : BitVec 1) :
    flagOf (withFlag f k b) j = if j = k then b else flagOf f j := by
  cases k <;> cases j <;> revert f b <;> decide

/-- A write of a flag keeps `f[3:0]`. -/
theorem withFlag_low (f : Byte) (k : Flag) (b : BitVec 1) :
    (withFlag f k b).extractLsb' 0 4 = f.extractLsb' 0 4 := by
  cases k <;> revert f b <;> decide

/-- A written flag reads as what was written. -/
@[simp] theorem readFlag_writeFlag_same (x : RegFile) (k : Flag) (b : BitVec 1) : readFlag (writeFlag x k b) k = some b := by
  simp [readFlag, writeFlag, flagOf_withFlag]

/-- A write of a flag keeps every other flag. -/
theorem readFlag_writeFlag_other (x : RegFile) (k j : Flag) (b : BitVec 1) (h : j ≠ k) :
    readFlag (writeFlag x k b) j = readFlag x j := by
  simp [readFlag, writeFlag, flagOf_withFlag, h]

/-- A write of a flag keeps every 8-bit cell but `f`. -/
theorem read8_writeFlag_other (x : RegFile) (k : Flag) (b : BitVec 1) (q : Reg8) (h : q ≠ .f) :
    read8 (writeFlag x k b) q = read8 x q := by
  cases q <;> first | rfl | exact absurd rfl h

/-! ## The form of the register file -/

/-- An 8-bit write keeps the form. -/
theorem canonical_write8 (x : RegFile) (r : Reg8) (v : Byte) (h : x.canonical = true) : (write8 x r v).canonical = true := by
  simp only [RegFile.canonical, Bool.and_eq_true] at h ⊢
  obtain ⟨⟨⟨⟨⟨⟨⟨⟨⟨ha, hb⟩, hc⟩, hd⟩, he⟩, hf⟩, hh⟩, hl⟩, hpc⟩, hsp⟩ := h
  cases r <;> simp_all [write8]

/-- A 16-bit write keeps the form. -/
theorem canonical_write16 (x : RegFile) (r : Reg16) (v : Word) (h : x.canonical = true) : (write16 x r v).canonical = true := by
  simp only [RegFile.canonical, Bool.and_eq_true] at h ⊢
  obtain ⟨⟨⟨⟨⟨⟨⟨⟨⟨ha, hb⟩, hc⟩, hd⟩, he⟩, hf⟩, hh⟩, hl⟩, hpc⟩, hsp⟩ := h
  cases r <;> simp_all [write16]

/-- No bit of `f` outside those that hold a value is set by a write of a flag, if none was. -/
theorem withFlag_canonical (f g : Byte) (k : Flag) (b : BitVec 1) (h : f &&& ~~~g = 0) :
    withFlag f k b &&& ~~~withFlag g k 1 = 0 := by
  have hb : ∀ i, i < 8 → (f.getLsbD i = true → g.getLsbD i = true) := by
    intro i hi hf
    have := congrArg (fun x => BitVec.getLsbD x i) h
    simp only [BitVec.getLsbD_and, BitVec.getLsbD_not, hf, hi] at this
    simpa using this
  ext i hi
  have hb := hb i hi
  simp only [withFlag, ← BitVec.getLsbD_eq_getElem, BitVec.getLsbD_and, BitVec.getLsbD_not, BitVec.getLsbD_or, hi]
  by_cases h1 : b = 1 <;> cases hm : (flagMask k).getLsbD i <;> cases hf : f.getLsbD i <;> simp_all

/-- A write of a flag keeps the form. -/
theorem canonical_writeFlag (x : RegFile) (k : Flag) (b : BitVec 1) (h : x.canonical = true) :
    (writeFlag x k b).canonical = true := by
  simp only [RegFile.canonical, Bool.and_eq_true] at h ⊢
  obtain ⟨⟨⟨⟨⟨⟨⟨⟨⟨ha, hb⟩, hc⟩, hd⟩, he⟩, hf⟩, hh⟩, hl⟩, hpc⟩, hsp⟩ := h
  refine ⟨⟨⟨⟨⟨⟨⟨⟨⟨ha, hb⟩, hc⟩, hd⟩, he⟩, ?_⟩, hh⟩, hl⟩, hpc⟩, hsp⟩
  simpa [writeFlag] using withFlag_canonical x.f x.held.f k b (by simpa using hf)

/-! ## Which cells hold a value -/

/-- The cells that hold a value after an 8-bit write. -/
theorem held_write8 (x : RegFile) (r : Reg8) (v : Byte) (h : x.held = Held.all) : (write8 x r v).held = Held.all := by
  cases r <;> simp [write8, h, Held.all]

/-- The cells that hold a value after a 16-bit write. -/
theorem held_write16 (x : RegFile) (r : Reg16) (v : Word) (h : x.held = Held.all) : (write16 x r v).held = Held.all := by
  cases r <;> simp [write16, h, Held.all]

/-- The cells that hold a value after a write of a flag. -/
theorem held_writeFlag (x : RegFile) (k : Flag) (b : BitVec 1) (h : x.held = Held.all) : (writeFlag x k b).held = Held.all := by
  simp only [writeFlag, h, Held.all, Held.mk.injEq, true_and, and_true]
  cases k <;> decide

/-- In an initialised file every 8-bit cell reads as its bits. -/
theorem read8_initialised (x : RegFile) (r : Reg8) (h : x.held = Held.all) : read8 x r = some (bits8 x r) := by
  cases r <;> simp [read8, holds8, h, Held.all]

/-- In an initialised file every 16-bit cell reads as its bits. -/
theorem read16_initialised (x : RegFile) (r : Reg16) (h : x.held = Held.all) : read16 x r = some (bits16 x r) := by
  cases r <;> simp [read16, holds16, h, Held.all]

/-- In an initialised file every flag reads as its bit. -/
theorem readFlag_initialised (x : RegFile) (k : Flag) (h : x.held = Held.all) : readFlag x k = some (flagOf x.f k) := by
  have : flagOf (0xFF : Byte) k = 1 := by cases k <;> decide
  simp only [readFlag, h, Held.all, this, if_true]

end Sys2Proof.Machine
end

