-- ==== Sys2Proof/Laws/Header.lean ====
section
/-! SUPPORT. The header window: what a decode reads and what it leaves. -/

namespace Sys2Proof.Machine

open Sys2Proof

/-- Every header byte is in bounds (R100). -/
theorem headerInBounds_iff (u : HeaderUnit) : headerInBounds u = true ↔ u.imgValid = true ∧ 0x150 ≤ u.imgLen := by
  simp only [headerInBounds, Bool.and_eq_true, decide_eq_true_eq]
  rfl

/-- Two-byte reads of images that read alike there. -/
theorem Memory.word_congr (m m' : List Host.Cell) (k : Nat) (h0 : Memory.read m' k = Memory.read m k)
    (h1 : Memory.read m' (k + 1) = Memory.read m (k + 1)) : Memory.word m' k = Memory.word m k := by
  simp [Memory.word, h0, h1]

/-- The window of an image whose window bytes are b. -/
theorem rawHeader_eq (m : List Host.Cell) (b : Nat → Byte)
    (h : ∀ k, 0x100 ≤ k → k < 0x150 → Memory.read m k = some (b k)) :
    rawHeader m = some {
      entryPoint := (List.range 4).map fun i => b (0x100 + i)
      logo := (List.range 48).map fun i => b (0x104 + i)
      title := (List.range 16).map fun i => b (0x134 + i)
      modernVendorCode := b 0x144 ++ b 0x145
      sgbFlag := b 0x146
      cartType := b 0x147
      romSizeCode := b 0x148
      ramSizeCode := b 0x149
      destinationCode := b 0x14A
      legacyVendorCode := b 0x14B
      version := b 0x14C
      headerChecksum := b 0x14D
      globalChecksum := b 0x14E ++ b 0x14F } := by
  have h1 := Memory.bytes_eq m 0x100 4 (fun i => b (0x100 + i)) (fun i hi => h _ (by omega) (by omega))
  have h2 := Memory.bytes_eq m 0x104 48 (fun i => b (0x104 + i)) (fun i hi => h _ (by omega) (by omega))
  have h3 := Memory.bytes_eq m 0x134 16 (fun i => b (0x134 + i)) (fun i hi => h _ (by omega) (by omega))
  simp only [rawHeader, titleBase, h1, h2, h3, Memory.word, h 0x144 (by omega) (by omega), h 0x145 (by omega) (by omega),
    h 0x146 (by omega) (by omega), h 0x147 (by omega) (by omega), h 0x148 (by omega) (by omega),
    h 0x149 (by omega) (by omega), h 0x14A (by omega) (by omega), h 0x14B (by omega) (by omega),
    h 0x14C (by omega) (by omega), h 0x14D (by omega) (by omega), h 0x14E (by omega) (by omega),
    h 0x14F (by omega) (by omega), Option.bind_eq_bind, Option.bind_some, pure]

/-- A two-byte read has both its bytes. -/
theorem Memory.word_isSome (m : List Host.Cell) (k : Nat) (w : Word) (h : Memory.word m k = some w) :
    (Memory.read m k).isSome = true ∧ (Memory.read m (k + 1)).isSome = true := by
  unfold Memory.word at h
  split at h
  · next h0 h1 => simp [h0, h1]
  · cases h

/-- A read of several bytes has every one of them. -/
theorem Memory.bytes_isSome (m : List Host.Cell) (k n : Nat) (bs : List Byte) (h : Memory.bytes m k n = some bs) (j : Nat)
    (h1 : k ≤ j) (h2 : j < k + n) : (Memory.read m j).isSome = true := by
  have h3 := Memory.bytes_getElem m k n bs h (j - k) (by omega)
  rw [show k + (j - k) = j by omega] at h3
  have h4 := Memory.bytes_length m k n bs h
  rw [h3, List.getElem?_eq_getElem (by omega)]
  rfl

/-- A window that was read has every one of its bytes. -/
theorem rawHeader_isSome (m : List Host.Cell) (raw : HeaderRecord) (h : rawHeader m = some raw) (k : Nat) (h1 : 0x100 ≤ k)
    (h2 : k < 0x150) : (Memory.read m k).isSome = true := by
  unfold rawHeader at h
  obtain ⟨_, e0, h⟩ := Option.bind_eq_some_iff.mp h
  obtain ⟨_, e1, h⟩ := Option.bind_eq_some_iff.mp h
  obtain ⟨_, e2, h⟩ := Option.bind_eq_some_iff.mp h
  obtain ⟨_, e3, h⟩ := Option.bind_eq_some_iff.mp h
  obtain ⟨_, e4, h⟩ := Option.bind_eq_some_iff.mp h
  obtain ⟨_, e5, h⟩ := Option.bind_eq_some_iff.mp h
  obtain ⟨_, e6, h⟩ := Option.bind_eq_some_iff.mp h
  obtain ⟨_, e7, h⟩ := Option.bind_eq_some_iff.mp h
  obtain ⟨_, e8, h⟩ := Option.bind_eq_some_iff.mp h
  obtain ⟨_, e9, h⟩ := Option.bind_eq_some_iff.mp h
  obtain ⟨_, e10, h⟩ := Option.bind_eq_some_iff.mp h
  obtain ⟨_, e11, h⟩ := Option.bind_eq_some_iff.mp h
  obtain ⟨_, e12, h⟩ := Option.bind_eq_some_iff.mp h
  by_cases c0 : k < 0x104
  · exact Memory.bytes_isSome m _ _ _ e0 k h1 (by omega)
  by_cases c1 : k < 0x134
  · exact Memory.bytes_isSome m _ _ _ e1 k (by omega) (by omega)
  by_cases c2 : k < 0x144
  · exact Memory.bytes_isSome m _ _ _ e2 k (by unfold titleBase; omega) (by unfold titleBase; omega)
  have e3 := Memory.word_isSome m _ _ e3
  have e12 := Memory.word_isSome m _ _ e12
  have hk : k = 0x144 ∨ k = 0x145 ∨ k = 0x146 ∨ k = 0x147 ∨ k = 0x148 ∨ k = 0x149 ∨ k = 0x14A ∨ k = 0x14B ∨ k = 0x14C ∨
      k = 0x14D ∨ k = 0x14E ∨ k = 0x14F := by omega
  rcases hk with rfl | rfl | rfl | rfl | rfl | rfl | rfl | rfl | rfl | rfl | rfl | rfl <;> first | exact e3.1 | exact e3.2 | exact e12.1 | exact e12.2 | simp_all

/-- The window as its bytes, where it was read. -/
theorem rawHeader_bytes (m : List Host.Cell) (raw : HeaderRecord) (h : rawHeader m = some raw) :
    ∃ b : Nat → Byte, ∀ k, 0x100 ≤ k → k < 0x150 → Memory.read m k = some (b k) := by
  refine ⟨fun k => (Memory.read m k).getD 0, fun k h1 h2 => ?_⟩
  obtain ⟨v, hv⟩ := Option.isSome_iff_exists.mp (rawHeader_isSome m raw h k h1 h2)
  simp [hv]

/-- DECODE writes only title bytes 11 to 15. -/
theorem titleWriteBack_mem (era : Byte) (k : Nat) (h : k ∈ titleWriteBack era) : 0x13F ≤ k ∧ k ≤ 0x143 := by
  unfold titleWriteBack titleNuls titleBase at h
  split at h <;> simp at h <;> omega

/-- The window read again after DECODE's write-back is the record that DECODE latched (R103). -/
theorem rawHeader_fill (m : List Host.Cell) (raw : HeaderRecord) (h : rawHeader m = some raw) :
    rawHeader (Memory.fill m (titleWriteBack raw.legacyVendorCode) 0x00) = some (latched raw) := by
  obtain ⟨b, hb⟩ := rawHeader_bytes m raw h
  rw [rawHeader_eq m b hb, Option.some.injEq] at h
  subst h
  have hf : ∀ k, 0x100 ≤ k → k < 0x150 → Memory.read (Memory.fill m (titleWriteBack (b 0x14B)) 0x00) k =
      some (if k ∈ titleWriteBack (b 0x14B) then 0x00 else b k) := by
    intro k h1 h2
    rw [Memory.read_fill, hb k h1 h2]
    split <;> rfl
  rw [rawHeader_eq _ _ hf]
  unfold titleWriteBack titleNuls titleBase latched normaliseTitle titleNuls
  by_cases he : b 0x14B = eraSentinel
  · simp [he, List.range_succ]
  · simp [he, List.range_succ]

/-- Normalising a normalised title changes nothing (R104 (d)). -/
theorem latched_latched (raw : HeaderRecord) : latched (latched raw) = latched raw := by
  simp only [latched, normaliseTitle, HeaderRecord.mk.injEq, true_and, and_true]
  unfold titleNuls
  split <;> simp [List.set_comm]

end Sys2Proof.Machine
end

