-- ==== Sys2Proof/Laws/Exec.lean ====
section
/-! SUPPORT. All that a command can do: a register-file command is a function of the register file alone, a decoder command of
the header decoder unit alone, and a read command writes neither. -/

namespace Sys2Proof.Machine

open Sys2Proof

/-- What a decoder command comes to, as a function of the header decoder unit. -/
def HduEffect := Except Fault (HeaderUnit × Response)

/-- The outcome of a decoder command with this effect. -/
def HduEffect.apply (o : HduEffect) (s : State) : Result :=
  match o with
  | .ok (y, r) => .next ((s.withHdu y).withAnswer (some r))
  | .error e => .fault e

/-- The register files that a write command can leave (R160). -/
inductive RfuWrites (x : RegFile) : RegFile → Prop
  | keep : RfuWrites x x
  | reset : RfuWrites x RegFile.afterReset
  | pair (p : Pair) (v : Word) : RfuWrites x (writePair x p v)
  | flag (k : Flag) (b : BitVec 1) : RfuWrites x (writeFlag x k b)
  | cell (r : Reg8) (v : Byte) : RfuWrites x (write8 x r v)
  | pointer (r : Reg16) (v : Word) : RfuWrites x (write16 x r v)

/-- The units that a decoder command can leave (R55). -/
inductive HduWrites (u : HeaderUnit) : HeaderUnit → Prop
  | keep : HduWrites u u
  | decode (raw : HeaderRecord) (hb : headerInBounds u = true) (hr : rawHeader u.img = some raw) : HduWrites u (decoded raw u)

/-- A read command is a function of the register file and keeps it. -/
theorem exec_read (i : Instr) (h : i.ports = [.rp0, .rp1]) (x : RegFile) :
    ∃ o : Except Fault Response, ∀ s, s.rfu = x → exec i s =
      match o with
      | .ok r => .next (s.withAnswer (some r))
      | .error e => .fault e := by
  cases i with
  | getpair p =>
    cases hp : pairOf p with
    | none => exact ⟨.ok { status := .invalidSelector }, fun s hs => by simp [exec, execGetpair, hp, raise, respond, statusOnly]⟩
    | some q =>
      cases hv : readPair x q with
      | none => exact ⟨.error .cellHoldsNoValue, fun s hs => by simp [exec, execGetpair, hp, hs, hv]⟩
      | some v => exact ⟨.ok { status := .ok, data := v }, fun s hs => by simp [exec, execGetpair, hp, hs, hv, respond]⟩
  | getflag k =>
    cases hp : flagNamed k with
    | none => exact ⟨.ok { status := .invalidSelector }, fun s hs => by simp [exec, execGetflag, hp, raise, respond, statusOnly]⟩
    | some q =>
      cases hv : readFlag x q with
      | none => exact ⟨.error .cellHoldsNoValue, fun s hs => by simp [exec, execGetflag, hp, hs, hv]⟩
      | some v =>
        exact ⟨.ok { status := .ok, data := v.zeroExtend 16 }, fun s hs => by simp [exec, execGetflag, hp, hs, hv, respond]⟩
  | getr8 r =>
    cases hp : reg8Of r with
    | none => exact ⟨.ok { status := .invalidSelector }, fun s hs => by simp [exec, execGetr8, hp, raise, respond, statusOnly]⟩
    | some q =>
      cases hv : read8 x q with
      | none => exact ⟨.error .cellHoldsNoValue, fun s hs => by simp [exec, execGetr8, hp, hs, hv]⟩
      | some v =>
        exact ⟨.ok { status := .ok, data := v.zeroExtend 16 }, fun s hs => by simp [exec, execGetr8, hp, hs, hv, respond]⟩
  | getr16 r =>
    cases hp : reg16Of r with
    | none => exact ⟨.ok { status := .invalidSelector }, fun s hs => by simp [exec, execGetr16, hp, raise, respond, statusOnly]⟩
    | some q =>
      cases hv : read16 x q with
      | none => exact ⟨.error .cellHoldsNoValue, fun s hs => by simp [exec, execGetr16, hp, hs, hv]⟩
      | some v => exact ⟨.ok { status := .ok, data := v }, fun s hs => by simp [exec, execGetr16, hp, hs, hv, respond]⟩
  | reset | setpair _ _ | setflag _ _ | setr8 _ _ | setr16 _ _ | decode | vendor _ _ _ | cartname _ | romsize _ | ramsize _
  | imgrd _ => simp [Instr.ports] at h

/-- A write command is a function of the register file, and leaves it in one of the ways R160 lists. -/
theorem exec_write (i : Instr) (h : i.ports = [.wp]) (x : RegFile) :
    ∃ y r, RfuWrites x y ∧ ∀ s, s.rfu = x → exec i s = .next ((s.withRfu y).withAnswer (some r)) := by
  have keep : ∀ s : State, s.rfu = x → s.withRfu x = s := fun s hs => by subst hs; rfl
  cases i with
  | reset =>
    exact ⟨_, { status := .ok }, .reset, fun s _ => by simp [exec, execReset, respond, statusOnly]⟩
  | setpair p v =>
    cases hp : pairOf p with
    | none =>
      exact ⟨x, { status := .invalidSelector }, .keep, fun s hs => by
        simp [exec, execSetpair, hp, raise, respond, statusOnly, keep s hs]⟩
    | some q =>
      exact ⟨_, { status := .ok }, .pair q v, fun s hs => by simp [exec, execSetpair, hp, hs, respond, statusOnly]⟩
  | setflag k b =>
    cases hp : flagNamed k with
    | none =>
      exact ⟨x, { status := .invalidSelector }, .keep, fun s hs => by
        simp [exec, execSetflag, hp, raise, respond, statusOnly, keep s hs]⟩
    | some q =>
      exact ⟨_, { status := .ok }, .flag q b, fun s hs => by simp [exec, execSetflag, hp, hs, respond, statusOnly]⟩
  | setr8 r v =>
    cases hp : reg8Of r with
    | none =>
      exact ⟨x, { status := .invalidSelector }, .keep, fun s hs => by
        simp [exec, execSetr8, hp, raise, respond, statusOnly, keep s hs]⟩
    | some q =>
      exact ⟨_, { status := .ok }, .cell q v, fun s hs => by simp [exec, execSetr8, hp, hs, respond, statusOnly]⟩
  | setr16 r v =>
    cases hp : reg16Of r with
    | none =>
      exact ⟨x, { status := .invalidSelector }, .keep, fun s hs => by
        simp [exec, execSetr16, hp, raise, respond, statusOnly, keep s hs]⟩
    | some q =>
      exact ⟨_, { status := .ok }, .pointer q v, fun s hs => by simp [exec, execSetr16, hp, hs, respond, statusOnly]⟩
  | getpair _ | getflag _ | getr8 _ | getr16 _ | decode | vendor _ _ _ | cartname _ | romsize _ | ramsize _
  | imgrd _ => simp [Instr.ports] at h

/-- A decoder command is a function of the header decoder unit, and leaves it as it was or as DECODE leaves it. -/
theorem exec_decoder (i : Instr) (h : i.ports = [.dp]) (u : HeaderUnit) :
    ∃ o : HduEffect, (∀ y r, o = .ok (y, r) → HduWrites u y) ∧ ∀ s, s.hdu = u → exec i s = o.apply s := by
  have keep : ∀ s : State, s.hdu = u → s.withHdu u = s := fun s hs => by subst hs; rfl
  cases i with
  | decode =>
    by_cases hb : headerInBounds u = true
    · cases hr : rawHeader u.img with
      | none =>
        exact ⟨.error .headerByteHoldsNoValue, fun _ _ h => (by cases h), fun s hs => by
          simp [exec, execDecode, hs, hb, hr, HduEffect.apply]⟩
      | some raw =>
        exact ⟨.ok (decoded raw u, { status := .ok }), fun y r h => by cases h; exact .decode raw hb hr, fun s hs => by
          simp [exec, execDecode, hs, hb, hr, HduEffect.apply, respond, statusOnly]⟩
    · exact ⟨.ok (u, { status := .outOfBounds }), fun y r h => by cases h; exact .keep, fun s hs => by
        simp [exec, execDecode, hs, hb, HduEffect.apply, raise, respond, statusOnly, keep s hs]⟩
  | imgrd addr =>
    by_cases hb : (u.imgValid && addr.toNat < u.imgLen) = true
    · cases hr : Memory.read u.img addr.toNat with
      | none =>
        exact ⟨.error (.imageByteHoldsNoValue addr.toNat), fun _ _ h => (by cases h), fun s hs => by
          simp only [exec, execImgrd, hs, hb, hr, HduEffect.apply, if_true, orFault_none]⟩
      | some b =>
        exact ⟨.ok (u, { status := .ok, data := b.zeroExtend 16, valid := 1 }), fun y r h => by cases h; exact .keep,
          fun s hs => by
            simp only [exec, execImgrd, hs, hb, hr, HduEffect.apply, if_true, orFault_some, respond, keep s hs]⟩
    · exact ⟨.ok (u, { status := .outOfBounds }), fun y r h => by cases h; exact .keep, fun s hs => by
        simp only [exec, execImgrd, hs, hb, HduEffect.apply, raise, respond, statusOnly, keep s hs, if_false, Bool.false_eq_true]⟩
  | vendor a e m =>
    exact ⟨.ok (u, vendorResponse (resolve a e m)), fun y r h => by cases h; exact .keep, fun s hs => by
      simp only [exec, execVendor, HduEffect.apply, respond, keep s hs]⟩
  | cartname c =>
    exact ⟨.ok (u, cartnameResponse c (cartname c)), fun y r h => by cases h; exact .keep, fun s hs => by
      simp only [exec, execCartname, HduEffect.apply, respond, keep s hs]⟩
  | romsize c =>
    exact ⟨.ok (u, romsizeResponse (romsize c)), fun y r h => by cases h; exact .keep, fun s hs => by
      simp only [exec, execRomsize, HduEffect.apply, respond, keep s hs]⟩
  | ramsize c =>
    exact ⟨.ok (u, ramsizeResponse (ramsize c)), fun y r h => by cases h; exact .keep, fun s hs => by
      simp only [exec, execRamsize, HduEffect.apply, respond, keep s hs]⟩
  | reset | setpair _ _ | setflag _ _ | setr8 _ _ | setr16 _ _ | getpair _ | getflag _ | getr8 _ | getr16 _ =>
    simp [Instr.ports] at h

/-- The three port classes (R74). -/
theorem ports_cases (i : Instr) : i.ports = [.rp0, .rp1] ∨ i.ports = [.wp] ∨ i.ports = [.dp] := by
  cases i <;> simp [Instr.ports]

/-- A register file that a write command leaves is in the form, if it was. -/
theorem RfuWrites.canonical {x y : RegFile} (h : RfuWrites x y) (hx : x.canonical = true) : y.canonical = true := by
  cases h with
  | keep => exact hx
  | reset => decide
  | pair p v => exact canonical_write8 _ _ _ (canonical_write8 _ _ _ hx)
  | flag k b => exact canonical_writeFlag _ _ _ hx
  | cell r v => exact canonical_write8 _ _ _ hx
  | pointer r v => exact canonical_write16 _ _ _ hx

/-- Cells that all held a value go on holding one (R37). -/
theorem RfuWrites.held {x y : RegFile} (h : RfuWrites x y) (hx : x.held = Held.all) : y.held = Held.all := by
  cases h with
  | keep => exact hx
  | reset => rfl
  | pair p v => exact held_write8 _ _ _ (held_write8 _ _ _ hx)
  | flag k b => exact held_writeFlag _ _ _ hx
  | cell r v => exact held_write8 _ _ _ hx
  | pointer r v => exact held_write16 _ _ _ hx

/-- The addresses of the header window are listed in an image that holds it. -/
theorem titleWriteBack_listed (u : HeaderUnit) (hi : u.Inv) (hb : headerInBounds u = true) (era : Byte) :
    ∀ k ∈ titleWriteBack era, k ∈ u.img.map Prod.fst := by
  intro k hk
  have h1 := titleWriteBack_mem era k hk
  rw [headerInBounds_iff] at hb
  rw [hi.addresses, List.mem_range]
  omega

/-- A unit that a decoder command leaves keeps the invariant. -/
theorem HduWrites.inv {u y : HeaderUnit} (h : HduWrites u y) (hi : u.Inv) : y.Inv := by
  cases h with
  | keep => exact hi
  | decode raw hb hr =>
    have ha : (decoded raw u).img.map Prod.fst = List.range u.imgLen := by
      rw [← hi.addresses]
      exact Memory.addresses_fill _ _ _ (Memory.wf_of_addresses _ _ hi.addresses) (titleWriteBack_listed u hi hb _)
    refine ⟨hi.capacity, ha, hi.unloaded, rfl, ?_⟩
    intro h hh
    cases hh
    exact ⟨hb, rawHeader_fill _ _ hr, latched_latched raw⟩

/-- A host load leaves a unit that meets the invariant, whatever the unit was (R57). -/
theorem hostLoad_inv (l : HostLoad) : (hostLoad l).1.Inv := by
  have empty : HeaderUnit.Inv { img := [], imgLen := 0, imgValid := false, hdr := none, hdrValid := false } :=
    ⟨Nat.zero_le _, rfl, fun _ => rfl, rfl, fun _ h => by cases h⟩
  cases l with
  | loadFail => exact empty
  | load bs =>
    simp only [hostLoad]
    split
    · next h =>
      refine ⟨h, ?_, fun h => (by cases h), rfl, fun _ h => (by cases h)⟩
      rw [Memory.ofBytes_addresses, List.range_eq_range']
    · exact empty

end Sys2Proof.Machine
end

