-- ==== Sys2Proof/Laws/PerInstr.lean ====
section
/-! SUPPORT. Statements for all instructions, one lemma per constructor. -/

namespace Sys2Proof.Laws.EncodeSelectsItsRow

open Sys2Proof

/-- The word of a command selects a row of the table, and the row's operands are the command's (30_encoding.md R75, R76). -/
def Statement (i : Instr) : Prop := ∃ r ∈ rows, r.selects (encode i) = true ∧ r.assemble (Fields.ofWord (encode i)) = i

/-- A row given by its place and the fields of its mask and pattern. -/
theorem of_row (i : Instr) (k : Nat) (m y : Fields) (hk : k < rows.length) (hm : Fields.ofWord (rows[k]'hk).mask = m)
    (hy : Fields.ofWord (rows[k]'hk).pattern = y)
    (hs : i.fields.op &&& m.op = y.op ∧ i.fields.sel &&& m.sel = y.sel ∧ i.fields.opa &&& m.opa = y.opa ∧
      i.fields.opb &&& m.opb = y.opb ∧ i.fields.opd &&& m.opd = y.opd)
    (ha : (rows[k]'hk).assemble i.fields = i) : Statement i := by
  refine ⟨rows[k], List.getElem_mem hk, ?_, ?_⟩
  · rw [Row.selects_iff, encode, Fields.ofWord_toWord, hm, hy]; exact hs
  · rw [encode, Fields.ofWord_toWord]; exact ha

/-- The low bits of a zero-extended operand. -/
theorem low_of_append {n m : Nat} (x : BitVec m) : ((0 : BitVec n) ++ x).extractLsb' 0 m = x := by
  ext i hi
  simp [BitVec.getLsbD_append, hi]

/-- The two parts of a 24-bit address put together (R76). -/
theorem address_parts (addr : BitVec 24) : addr.extractLsb' 16 8 ++ addr.extractLsb' 0 16 = addr := by
  ext i hi
  simp only [← BitVec.getLsbD_eq_getElem, BitVec.getLsbD_append, BitVec.getLsbD_extractLsb']
  interval_cases i <;> simp

theorem reset : Statement .reset :=
  of_row _ 0 { op := 0xF, sel := 0xF, opa := 0xFF, opb := 0xFF, opd := 0xFFFF }
    { op := 0x1, sel := 0, opa := 0, opb := 0, opd := 0 } (by decide) (by decide) (by decide)
    (by simp [Instr.fields]) rfl

theorem getpair (p : BitVec 4) : Statement (.getpair p) :=
  of_row _ 1 { op := 0xF, sel := 0x0, opa := 0xFF, opb := 0xFF, opd := 0xFFFF }
    { op := 0x2, sel := 0, opa := 0, opb := 0, opd := 0 } (by decide) (by decide) (by decide)
    (by simp [Instr.fields]) rfl

theorem setpair (p : BitVec 4) (v : Word) : Statement (.setpair p v) :=
  of_row _ 2 { op := 0xF, sel := 0x0, opa := 0xFF, opb := 0xFF, opd := 0x0 }
    { op := 0x3, sel := 0, opa := 0, opb := 0, opd := 0 } (by decide) (by decide) (by decide)
    (by simp [Instr.fields]) rfl

theorem getflag (k : BitVec 4) : Statement (.getflag k) :=
  of_row _ 3 { op := 0xF, sel := 0x0, opa := 0xFF, opb := 0xFF, opd := 0xFFFF }
    { op := 0x4, sel := 0, opa := 0, opb := 0, opd := 0 } (by decide) (by decide) (by decide)
    (by simp [Instr.fields]) rfl

theorem setflag (k : BitVec 4) (b : BitVec 1) : Statement (.setflag k b) :=
  of_row _ 4 { op := 0xF, sel := 0x0, opa := 0xFF, opb := 0xFF, opd := 0xFFFE }
    { op := 0x5, sel := 0, opa := 0, opb := 0, opd := 0 } (by decide) (by decide) (by decide)
    (by simp only [Instr.fields]; revert b; simp; decide) (congrArg (Instr.setflag k) (low_of_append b))

theorem getr8 (r : BitVec 4) : Statement (.getr8 r) :=
  of_row _ 5 { op := 0xF, sel := 0x0, opa := 0xFF, opb := 0xFF, opd := 0xFFFF }
    { op := 0x6, sel := 0, opa := 0, opb := 0, opd := 0 } (by decide) (by decide) (by decide)
    (by simp [Instr.fields]) rfl

theorem setr8 (r : BitVec 4) (v : Byte) : Statement (.setr8 r v) :=
  of_row _ 6 { op := 0xF, sel := 0x0, opa := 0xFF, opb := 0xFF, opd := 0xFF00 }
    { op := 0x7, sel := 0, opa := 0, opb := 0, opd := 0 } (by decide) (by decide) (by decide)
    (by simp only [Instr.fields]; revert v; simp; decide) (congrArg (Instr.setr8 r) (low_of_append v))

theorem getr16 (x : BitVec 4) : Statement (.getr16 x) :=
  of_row _ 7 { op := 0xF, sel := 0x0, opa := 0xFF, opb := 0xFF, opd := 0xFFFF }
    { op := 0x8, sel := 0, opa := 0, opb := 0, opd := 0 } (by decide) (by decide) (by decide)
    (by simp [Instr.fields]) rfl

theorem setr16 (x : BitVec 4) (v : Word) : Statement (.setr16 x v) :=
  of_row _ 8 { op := 0xF, sel := 0x0, opa := 0xFF, opb := 0xFF, opd := 0x0 }
    { op := 0x9, sel := 0, opa := 0, opb := 0, opd := 0 } (by decide) (by decide) (by decide)
    (by simp [Instr.fields]) rfl

theorem decode : Statement .decode :=
  of_row _ 9 { op := 0xF, sel := 0xF, opa := 0xFF, opb := 0xFF, opd := 0xFFFF }
    { op := 0xA, sel := 0, opa := 0, opb := 0, opd := 0 } (by decide) (by decide) (by decide)
    (by simp [Instr.fields]) rfl

theorem vendor (legacyCode eraFlag : Byte) (modernCode : Word) : Statement (.vendor legacyCode eraFlag modernCode) :=
  of_row _ 10 { op := 0xF, sel := 0xF, opa := 0x0, opb := 0x0, opd := 0x0 }
    { op := 0xB, sel := 0, opa := 0, opb := 0, opd := 0 } (by decide) (by decide) (by decide)
    (by simp [Instr.fields]) rfl

theorem cartname (code : Byte) : Statement (.cartname code) :=
  of_row _ 11 { op := 0xF, sel := 0xF, opa := 0x0, opb := 0xFF, opd := 0xFFFF }
    { op := 0xC, sel := 0, opa := 0, opb := 0, opd := 0 } (by decide) (by decide) (by decide)
    (by simp [Instr.fields]) rfl

theorem romsize (code : Byte) : Statement (.romsize code) :=
  of_row _ 12 { op := 0xF, sel := 0xF, opa := 0x0, opb := 0xFF, opd := 0xFFFF }
    { op := 0xD, sel := 0, opa := 0, opb := 0, opd := 0 } (by decide) (by decide) (by decide)
    (by simp [Instr.fields]) rfl

theorem ramsize (code : Byte) : Statement (.ramsize code) :=
  of_row _ 13 { op := 0xF, sel := 0xF, opa := 0x0, opb := 0xFF, opd := 0xFFFF }
    { op := 0xE, sel := 0, opa := 0, opb := 0, opd := 0 } (by decide) (by decide) (by decide)
    (by simp [Instr.fields]) rfl

theorem imgrd (addr : BitVec 24) : Statement (.imgrd addr) :=
  of_row _ 14 { op := 0xF, sel := 0xF, opa := 0x0, opb := 0xFF, opd := 0x0 }
    { op := 0xF, sel := 0, opa := 0, opb := 0, opd := 0 } (by decide) (by decide) (by decide)
    (by simp [Instr.fields]) (congrArg Instr.imgrd (address_parts addr))

end Sys2Proof.Laws.EncodeSelectsItsRow
end

