-- ==== Sys2Proof/Laws/Step.lean ====
section
/-! SUPPORT. All that a port, and all that a step, can do. -/

namespace Sys2Proof.Machine

open Sys2Proof

/-- A word admitted at a port is a command of that port's class. -/
theorem admission_ok (p : Port) (w : Command) (i : Instr) : admission p w = .ok i ↔ decode w = .ok i ∧ p ∈ i.ports := by
  unfold admission
  cases hd : decode w with
  | error e => simp
  | ok j =>
    simp only [Instr.wellFormedAt, List.contains_eq_mem, decide_eq_true_eq, Except.ok.injEq]
    split
    · next h => simp only [Except.ok.injEq]; constructor
                · rintro rfl; exact ⟨rfl, h⟩
                · exact fun h => h.1
    · next h => simp only [reduceCtorEq, false_iff, not_and]
                rintro rfl; exact h

/-- A read port answers, or faults, as the register file says, and writes nothing. -/
theorem perform_read (p : Port) (hp : p = .rp0 ∨ p = .rp1) (w : Option Command) (x : RegFile) :
    ∃ o : Except Fault (Option Response), ∀ s, s.rfu = x → perform p w s =
      match o with
      | .ok r => .next (s.withAnswer r)
      | .error e => .fault e := by
  cases w with
  | none => exact ⟨.ok none, fun s _ => rfl⟩
  | some w =>
    cases ha : admission p w with
    | error e => exact ⟨.ok (some { status := .illegalCommand }), fun s _ => by simp [perform, ha, raise, respond, statusOnly]⟩
    | ok i =>
      have hm := ((admission_ok p w i).mp ha).2
      have hi : i.ports = [.rp0, .rp1] := by
        rcases ports_cases i with h | h | h
        · exact h
        · rw [h] at hm; rcases hp with rfl | rfl <;> simp at hm
        · rw [h] at hm; rcases hp with rfl | rfl <;> simp at hm
      obtain ⟨o, ho⟩ := exec_read i hi x
      cases o with
      | ok r => exact ⟨.ok (some r), fun s hs => by simpa [perform, ha] using ho s hs⟩
      | error e => exact ⟨.error e, fun s hs => by simpa [perform, ha] using ho s hs⟩

/-- The write port goes on in every state, and writes the register file as R160 lists. -/
theorem perform_write (w : Option Command) (x : RegFile) :
    ∃ y r, RfuWrites x y ∧ ∀ s, s.rfu = x → perform .wp w s = .next ((s.withRfu y).withAnswer r) := by
  have keep : ∀ s : State, s.rfu = x → s.withRfu x = s := fun s hs => by subst hs; rfl
  cases w with
  | none => exact ⟨x, none, .keep, fun s hs => by rw [keep s hs]; rfl⟩
  | some w =>
    cases ha : admission .wp w with
    | error e =>
      exact ⟨x, some { status := .illegalCommand }, .keep, fun s hs => by
        simp [perform, ha, raise, respond, statusOnly, keep s hs]⟩
    | ok i =>
      have hm := ((admission_ok .wp w i).mp ha).2
      have hi : i.ports = [.wp] := by
        rcases ports_cases i with h | h | h
        · rw [h] at hm; simp at hm
        · exact h
        · rw [h] at hm; simp at hm
      obtain ⟨y, r, hy, ho⟩ := exec_write i hi x
      exact ⟨y, some r, hy, fun s hs => by simpa [perform, ha] using ho s hs⟩

/-- The outcome at the decoder port with this effect. -/
def decoderOutcome (o : Except Fault (HeaderUnit × Option Response)) (s : State) : Result :=
  match o with
  | .ok (y, r) => .next ((s.withHdu y).withAnswer r)
  | .error e => .fault e

/-- The decoder port answers, or faults, as the header decoder unit says, and writes that unit as DECODE does or not at all. -/
theorem perform_decoder (w : Option Command) (u : HeaderUnit) :
    ∃ o : Except Fault (HeaderUnit × Option Response), (∀ y r, o = .ok (y, r) → HduWrites u y) ∧
      ∀ s, s.hdu = u → perform .dp w s = decoderOutcome o s := by
  have keep : ∀ s : State, s.hdu = u → s.withHdu u = s := fun s hs => by subst hs; rfl
  cases w with
  | none => exact ⟨.ok (u, none), fun y r h => (by cases h; exact .keep), fun s hs => by simp only [decoderOutcome]; rw [keep s hs]; rfl⟩
  | some w =>
    cases ha : admission .dp w with
    | error e =>
      exact ⟨.ok (u, some { status := .illegalCommand }), fun y r h => (by cases h; exact .keep), fun s hs => by
        simp [perform, ha, raise, respond, statusOnly, decoderOutcome, keep s hs]⟩
    | ok i =>
      have hm := ((admission_ok .dp w i).mp ha).2
      have hi : i.ports = [.dp] := by
        rcases ports_cases i with h | h | h
        · rw [h] at hm; simp at hm
        · rw [h] at hm; simp at hm
        · exact h
      obtain ⟨o, hy, ho⟩ := exec_decoder i hi u
      cases o with
      | ok yr =>
        obtain ⟨y, r⟩ := yr
        exact ⟨.ok (y, some r), fun y' r' h => (by cases h; exact hy y r rfl), fun s hs => by
          simpa [perform, ha, HduEffect.apply, decoderOutcome] using ho s hs⟩
      | error e =>
        exact ⟨.error e, fun _ _ h => (by cases h), fun s hs => by
          simpa [perform, ha, HduEffect.apply, decoderOutcome] using ho s hs⟩

/-- All that a cycle can do: every port goes on, and the state is what `conclude` makes of them. -/
theorem cycle_eq_next (i : StepInput) (rest : List StepInput) (s t : State) :
    cycle i rest s = .next t ↔ i.wellFormed = true ∧ ∃ rp0 rp1 wp dp seen,
      perform .rp0 i.rp0 s = .next rp0 ∧ perform .rp1 i.rp1 s = .next rp1 ∧ perform .wp i.wp s = .next wp ∧
      perform .dp i.dp s = .next dp ∧ probeAll s.hdu i.probes = .next seen ∧ t = conclude i rest rp0 rp1 wp dp seen := by
  unfold cycle
  split
  · next h =>
    simp only [andThen_eq_next, h, true_and, Host.Outcome.next.injEq]
    constructor
    · rintro ⟨a, ha, b, hb, c, hc, d, hd, e, he, rfl⟩
      exact ⟨a, b, c, d, e, ha, hb, hc, hd, he, rfl⟩
    · rintro ⟨a, b, c, d, e, ha, hb, hc, hd, he, rfl⟩
      exact ⟨a, ha, b, hb, c, hc, d, hd, e, he, rfl⟩
  · next h => simp [h]

/-- The step is the cycle of the driver's next input, idle where it has none. -/
theorem step_eq (s : State) : step s = cycle (s.driver.headD StepInput.idle) s.driver.tail s := by
  unfold step
  cases s.driver <;> rfl

/-- The units after a step (R223): the register file as the write port leaves it, the header decoder unit as the host load or
the decoder port leaves it. -/
theorem cycle_units (i : StepInput) (rest : List StepInput) (s t : State) (h : cycle i rest s = .next t) :
    RfuWrites s.rfu t.rfu ∧ (HduWrites s.hdu t.hdu ∨ ∃ l, t.hdu = (hostLoad l).1) ∧ t.answer = none ∧ t.driver = rest := by
  obtain ⟨_, rp0, rp1, wp, dp, seen, _, _, h3, h4, _, rfl⟩ := (cycle_eq_next i rest s t).mp h
  obtain ⟨y, r, hy, ho⟩ := perform_write i.wp s.rfu
  rw [ho s rfl] at h3
  cases h3
  obtain ⟨o, hz, ho⟩ := perform_decoder i.dp s.hdu
  rw [ho s rfl] at h4
  cases o with
  | error e => cases h4
  | ok zr =>
    obtain ⟨z, q⟩ := zr
    cases h4
    refine ⟨hy, ?_, rfl, rfl⟩
    cases hh : i.host with
    | none => left; simpa [conclude, hh] using hz z q rfl
    | some l => right; exact ⟨l, by simp [conclude, hh]⟩

end Sys2Proof.Machine
end

