-- ==== Sys2Proof/Tests/Slice0.lean ====
section
/-! SUPPORT. Tests of the model against the vectors of spec/95_test_vectors.md (V, T and P numbers), the ill-formed terms that the
checks refuse, and for each statement with hypotheses a concrete case that meets them. -/

namespace Sys2Proof.Tests

open Sys2Proof Sys2Proof.Machine Sys2Proof.Claims

/-! ## Helpers -/

/-- The state after one step with this input, where the step goes on. -/
def after (s : State) (i : StepInput) : Option State :=
  match step (s.withDriver [i]) with
  | .next t => some t
  | _ => none

/-- The fault at which one step with this input stops. -/
def stop (s : State) (i : StepInput) : Option Fault :=
  match step (s.withDriver [i]) with
  | .fault e => some e
  | _ => none

/-- The reset state with another register file. -/
def regs (x : RegFile) : State := State.reset.withRfu x

/-- The reset state with another `f`. -/
def flags (f : Byte) : State := regs { RegFile.afterReset with f := f }

/-- The reset state with an image of which the bytes from `base` on are listed, of length `len`. -/
def holding (base : Nat) (bs : List Byte) (len : Nat) : State :=
  State.reset.withHdu { img := Memory.ofBytes base bs, imgLen := len, imgValid := true, hdr := none, hdrValid := false }

/-- The header window of program P2 up to the title: entry point and logo. -/
def windowHead : List Byte := [0x00, 0xC3, 0x50, 0x01] ++ List.replicate 48 0x00

/-- "COFFEEBREAK", "XXXX" and 0x80, the raw title of program P2. -/
def coffee : List Byte :=
  [0x43, 0x4F, 0x46, 0x46, 0x45, 0x45, 0x42, 0x52, 0x45, 0x41, 0x4B, 0x58, 0x58, 0x58, 0x58, 0x80]

/-- The header window of program P2 after the title, with another era byte. -/
def windowTail (era : Byte) : List Byte :=
  [0x37, 0x38, 0x00, 0x13, 0x05, 0x03, 0x01, era, 0x02, 0xAB, 0xF5, 0x30]

/-- The header window of program P2, with another era byte. -/
def window (era : Byte) : List Byte := windowHead ++ coffee ++ windowTail era

/-- A state whose image has that window. -/
def loaded (era : Byte) : State := holding 0x100 (window era) 0x150

/-- The record of that window, before its title is normalised. -/
def raw (era : Byte) : HeaderRecord :=
  { entryPoint := [0x00, 0xC3, 0x50, 0x01], logo := List.replicate 48 0x00, title := coffee, modernVendorCode := 0x3738,
    sgbFlag := 0x00, cartType := 0x13, romSizeCode := 0x05, ramSizeCode := 0x03, destinationCode := 0x01,
    legacyVendorCode := era, version := 0x02, headerChecksum := 0xAB, globalChecksum := 0xF530 }

/-! ## Terms that the checks refuse -/

theorem test_wellFormed_read_at_wp : Instr.wellFormedAt .wp (.getpair 0) = false := by decide
theorem test_wellFormed_read_at_dp : Instr.wellFormedAt .dp (.getr8 0) = false := by decide
theorem test_wellFormed_write_at_rp0 : Instr.wellFormedAt .rp0 .reset = false := by decide
theorem test_wellFormed_write_at_rp1 : Instr.wellFormedAt .rp1 (.setr16 0 0) = false := by decide
theorem test_wellFormed_decode_at_wp : Instr.wellFormedAt .wp .decode = false := by decide
theorem test_wellFormed_load_with_decoder :
    StepInput.wellFormed { dp := some 0xF000000000, host := some (.load []) } = false := by decide
theorem test_wellFormed_load_with_write :
    StepInput.wellFormed { wp := some 0x910000FFFE, host := some (.load [0xAA]) } = true := by decide

/-- R83: a selector or value too wide, a wrong name, a character without an ASCII code (log 12), a missing operand, and two commands at one port are not of the form. -/
theorem test_assemble_refuses :
    Assembler.assemble "RP0: GETPAIR 16" = none ∧ Assembler.assemble "WP: SETFLAG Z, 2" = none ∧
    Assembler.assemble "WP: SETR8 h, 0x100" = none ∧ Assembler.assemble "RP0: GETR8 A" = none ∧
    Assembler.assemble "DP: VENDOR 0, 0x33, \"é8\"" = none ∧ Assembler.assemble "WP: SETPAIR BC" = none ∧ Assembler.assemble "XP: RESET" = none ∧
    Assembler.assemble (String.ofList (Assembler.openBrace :: "DP: DECODE; HOST: LOADFAIL".toList ++ [Assembler.closeBrace])) = none := by
  decide

/-- R83: a grouped step of two commands, and a grouped step with a host load (T90). -/
theorem test_assemble_step :
    Assembler.assemble (String.ofList (Assembler.openBrace :: " RP0: GETPAIR HL; WP: SETPAIR HL, 0xC0DE ".toList ++ [Assembler.closeBrace])) =
      some { rp0 := some 0x2300000000, wp := some 0x330000C0DE } ∧
    Assembler.assemble (String.ofList (Assembler.openBrace :: " WP: SETR16 sp, 0xFFFE; HOST: LOAD [0xAA] ".toList ++ [Assembler.closeBrace])) =
      some { wp := some 0x910000FFFE, host := some (.load [0xAA]) } := by
  decide

/-! ## Decoding: a word of every row, written bit by bit from R73, R75 and R76 -/

theorem test_decode_reset : decode 0b0001000000000000000000000000000000000000 = .ok .reset := by decide
theorem test_decode_getpair : decode 0b0010001100000000000000000000000000000000 = .ok (.getpair 3) := by decide
theorem test_decode_setpair : decode 0b0011000100000000000000001011111011101111 = .ok (.setpair 1 0xBEEF) := by decide
theorem test_decode_getflag : decode 0b0100001100000000000000000000000000000000 = .ok (.getflag 3) := by decide
theorem test_decode_setflag : decode 0b0101001000000000000000000000000000000001 = .ok (.setflag 2 1) := by decide
theorem test_decode_getr8 : decode 0b0110111100000000000000000000000000000000 = .ok (.getr8 15) := by decide
theorem test_decode_setr8 : decode 0b0111011000000000000000000000000000010010 = .ok (.setr8 6 0x12) := by decide
theorem test_decode_getr16 : decode 0b1000000100000000000000000000000000000000 = .ok (.getr16 1) := by decide
theorem test_decode_setr16 : decode 0b1001000100000000000000001111111111111110 = .ok (.setr16 1 0xFFFE) := by decide
theorem test_decode_decode : decode 0b1010000000000000000000000000000000000000 = .ok .decode := by decide
theorem test_decode_vendor :
    decode 0b1011000000000001001100110011011100111000 = .ok (.vendor 0x01 0x33 0x3738) := by decide
theorem test_decode_cartname : decode 0b1100000011101110000000000000000000000000 = .ok (.cartname 0xEE) := by decide
theorem test_decode_romsize : decode 0b1101000000000101000000000000000000000000 = .ok (.romsize 0x05) := by decide
theorem test_decode_ramsize : decode 0b1110000000000011000000000000000000000000 = .ok (.ramsize 0x03) := by decide
theorem test_decode_imgrd : decode 0b1111000000000001000000000010001101000101 = .ok (.imgrd 0x012345) := by decide

/-- T40 to T50 and the other illegal words of 95_test_vectors.md. -/
theorem test_admit_illegal :
    admission .rp0 0x0000000000 = .error .reservedOpcode ∧ admission .wp 0x0FFFFFFFFF = .error .reservedOpcode ∧
    admission .dp 0xA100000000 = .error .mustBeZero ∧ admission .wp 0xA000000000 = .error .wrongPort ∧
    admission .dp 0x2000000000 = .error .wrongPort ∧ admission .dp 0xB133333738 = .error .mustBeZero ∧
    admission .dp 0xC001010000 = .error .mustBeZero ∧ admission .dp 0xD005000001 = .error .mustBeZero ∧
    admission .dp 0xF000010000 = .error .mustBeZero ∧ admission .rp1 0x2000000001 = .error .mustBeZero ∧
    admission .wp 0x5000000002 = .error .mustBeZero ∧ admission .wp 0x7000000100 = .error .mustBeZero := by decide

/-- The opcode table's numbering; a number that is no 40-bit word is no command. -/
theorem test_decodeTableWord :
    decodeTableWord 40 0x310000BEEF = some (.setpair 1 0xBEEF) ∧ decodeTableWord 40 0x0000000000 = none ∧
    decodeTableWord 48 0x10310000BEEF = none := by decide

/-! ## One step of each command -/

/-- T1: RESET from a register file full of other values; T2: from power-on. -/
theorem test_reset_any :
    (after (regs { RegFile.afterReset with a := 0xFF, f := 0xFF, b := 0x12, c := 0x34, pc := 0x4000, sp := 0xCFFF })
      { wp := some 0x1000000000 }).map (fun t => (t.rfu, t.out.wp)) = some (RegFile.afterReset, some .ok) := by decide
theorem test_reset_powerOn :
    (after State.powerOn { wp := some 0x1000000000 }).map (fun t => (t.rfu, t.hdu)) =
      some (RegFile.afterReset, HeaderUnit.powerOn) := by decide

/-- T7: GETPAIR AF gives the low nibble as stored; T10: selector 4. -/
theorem test_getpair_af :
    (after (flags 0x0F) { rp1 := some 0x2000000000 }).map (fun t => t.out.rp1) = some (some ⟨.ok, 0x010F⟩) := by decide
theorem test_getpair_range :
    (after State.reset { rp0 := some 0x2400000000 }).map (fun t => (t.out.rp0, t.rfu)) =
      some (some ⟨.invalidSelector, 0x0000⟩, RegFile.afterReset) := by decide

/-- T8: SETPAIR HL; T12: selector 4. -/
theorem test_setpair_hl :
    (after State.reset { wp := some 0x3300008001 }).map (fun t => (t.rfu, t.out.wp)) =
      some ({ RegFile.afterReset with h := 0x80, l := 0x01 }, some .ok) := by decide
theorem test_setpair_range :
    (after State.reset { wp := some 0x3400001234 }).map (fun t => (t.rfu, t.out.wp)) =
      some (RegFile.afterReset, some .invalidSelector) := by decide

/-- T16 and T17: GETFLAG C and GETFLAG H of f = 0x90; T18: the low nibble is no flag. -/
theorem test_getflag :
    (after (flags 0x90) { rp0 := some 0x4200000000, rp1 := some 0x4300000000 }).map (fun t => (t.out.rp0, t.out.rp1)) =
      some (some ⟨.ok, 0x0000⟩, some ⟨.ok, 0x0001⟩) := by decide
theorem test_getflag_low :
    (after (flags 0x0F) { rp0 := some 0x4000000000 }).map (fun t => t.out.rp0) = some (some ⟨.ok, 0x0000⟩) := by decide

/-- V2: SETFLAG Z, 1 of f = 0x5A; T20: SETFLAG H, 0 of f = 0xFF. -/
theorem test_setflag_one :
    (after (flags 0x5A) { wp := some 0x5000000001 }).map (fun t => t.rfu) =
      some { RegFile.afterReset with f := 0xDA } := by decide
theorem test_setflag_zero :
    (after (flags 0xFF) { wp := some 0x5200000000 }).map (fun t => t.rfu.f) = some 0xDF := by decide

/-- T28: GETR8 l; T31: selector 8. -/
theorem test_getr8_l :
    (after (regs { RegFile.afterReset with h := 0x12, l := 0x34 }) { rp1 := some 0x6700000000 }).map (fun t => t.out.rp1) =
      some (some ⟨.ok, 0x0034⟩) := by decide
theorem test_getr8_range :
    (after State.reset { rp0 := some 0x6800000000 }).map (fun t => t.out.rp0) = some (some ⟨.invalidSelector, 0x0000⟩) := by
  decide

/-- T29: SETR8 f stores the low nibble; T32: selector 9. -/
theorem test_setr8_f :
    (after State.reset { wp := some 0x750000000F }).map (fun t => t.rfu) =
      some { RegFile.afterReset with f := 0x0F } := by decide
theorem test_setr8_range :
    (after State.reset { wp := some 0x7900000055 }).map (fun t => (t.rfu, t.out.wp)) =
      some (RegFile.afterReset, some .invalidSelector) := by decide

/-- T34: GETR16 pc; T38: selector 2. -/
theorem test_getr16_pc :
    (after State.reset { rp1 := some 0x8000000000 }).map (fun t => t.out.rp1) = some (some ⟨.ok, 0x0100⟩) := by decide
theorem test_getr16_range :
    (after State.reset { rp0 := some 0x8200000000 }).map (fun t => t.out.rp0) = some (some ⟨.invalidSelector, 0x0000⟩) := by
  decide

/-- T37: SETR16 pc takes an odd value; T36: SETR16 sp. -/
theorem test_setr16_odd :
    (after State.reset { wp := some 0x9000000001 }).map (fun t => t.rfu) =
      some { RegFile.afterReset with pc := 0x0001 } := by decide
theorem test_setr16_sp :
    (after State.reset { wp := some 0x910000FFFE }).map (fun t => t.rfu) =
      some { RegFile.afterReset with sp := 0xFFFE } := by decide

/-- V10: VENDOR with the modern era gives "THQ"; T73: era 0x32 takes the legacy path. -/
theorem test_vendor_modern :
    (after State.reset { dp := some 0xB033333738 }).map (fun t => t.out.dp) =
      some (some { status := .ok, valid := 1, found := 1, name := [0x54, 0x48, 0x51] }) := by decide
theorem test_vendor_legacy :
    (after State.reset { dp := some 0xB001323738 }).map (fun t => t.out.dp) =
      some (some { status := .ok, valid := 1, found := 1,
                   name := [0x4E, 0x69, 0x6E, 0x74, 0x65, 0x6E, 0x64, 0x6F] }) := by decide

/-- T78 without its premise: CARTNAME echoes the code whatever the table holds. -/
theorem test_cartname_echo :
    (after State.reset { dp := some 0xC0EE000000 }).map (fun t => t.out.dp.map fun r => (r.status, r.data, r.valid)) =
      some (some (.ok, 0x00EE, 1)) := by decide

/-- L2.10: ROMSIZE 0x05 and ROMSIZE 0x09. -/
theorem test_romsize_mib :
    (after State.reset { dp := some 0xD005000000 }).map (fun t => t.out.dp) =
      some (some { status := .ok, data := 0x0001, valid := 1, unit := 1, found := 1, name := [0x31, 0x4D, 0x69, 0x42] }) := by
  decide
theorem test_romsize_absent :
    (after State.reset { dp := some 0xD009000000 }).map (fun t => t.out.dp) = some (some { status := .ok }) := by decide

/-- L2.11: RAMSIZE 0x01 and RAMSIZE 0x05. -/
theorem test_ramsize_undocumented :
    (after State.reset { dp := some 0xE001000000 }).map (fun t => t.out.dp) =
      some (some { status := .ok, data := 0xFFFF, valid := 1, found := 1 }) := by decide
theorem test_ramsize_five :
    (after State.reset { dp := some 0xE005000000 }).map (fun t => t.out.dp) =
      some (some { status := .ok, data := 0x0040, valid := 1, found := 1 }) := by decide

/-- T65 and T66: IMGRD of the last byte, and one past it. -/
theorem test_imgrd_last :
    (after (holding 0 [0x00, 0xC3] 2) { dp := some 0xF000000001 }).map (fun t => t.out.dp) =
      some (some { status := .ok, data := 0x00C3, valid := 1 }) := by decide
theorem test_imgrd_past :
    (after (holding 0 [0x00, 0xC3] 2) { dp := some 0xF000000002 }).map (fun t => t.out.dp) =
      some (some { status := .outOfBounds }) := by decide

/-- P2, steps 3 to 5: DECODE of the modern-era window. -/
theorem test_decode_modern :
    (after (loaded 0x33) { dp := some 0xA000000000 }).map (fun t =>
        (t.out.dp, t.hdu.hdr, (List.range 7).map fun i => Memory.read t.hdu.img (0x13E + i))) =
      some (some { status := .ok },
        some { raw 0x33 with
          title := [0x43, 0x4F, 0x46, 0x46, 0x45, 0x45, 0x42, 0x52, 0x45, 0x41, 0x4B, 0x00, 0x00, 0x00, 0x00, 0x00] },
        [some 0x4B, some 0x00, some 0x00, some 0x00, some 0x00, some 0x00, some 0x37]) := by decide

/-- T55: any other era byte clears title byte 15 alone. -/
theorem test_decode_legacy :
    (after (loaded 0x32) { dp := some 0xA000000000 }).map (fun t =>
        (t.hdu.hdr.map (·.title), (List.range 6).map fun i => Memory.read t.hdu.img (0x13F + i))) =
      some (some [0x43, 0x4F, 0x46, 0x46, 0x45, 0x45, 0x42, 0x52, 0x45, 0x41, 0x4B, 0x58, 0x58, 0x58, 0x58, 0x00],
        [some 0x58, some 0x58, some 0x58, some 0x58, some 0x00, some 0x37]) := by decide

/-! ## The step, the host load and the record bus -/

/-- T86 and T88: reads see the start of their step; one port's error does not cancel another port's command. -/
theorem test_step_old_values :
    (after State.reset { rp0 := some 0x4000000000, rp1 := some 0x6500000000, wp := some 0x5000000001 }).map
        (fun t => (t.out.rp0, t.out.rp1, t.out.wp, t.rfu.f)) =
      some (some ⟨.ok, 0x0000⟩, some ⟨.ok, 0x0000⟩, some .ok, 0x80) := by decide
theorem test_step_errors :
    (after State.reset { rp0 := some 0x2900000000, rp1 := some 0x2000000000, wp := some 0x3700001111 }).map
        (fun t => (t.out.rp0, t.out.rp1, t.out.wp, t.rfu)) =
      some (some ⟨.invalidSelector, 0x0000⟩, some ⟨.ok, 0x0100⟩, some .invalidSelector, RegFile.afterReset) := by decide

/-- V14: a failed load. -/
theorem test_load_fail :
    (after (loaded 0x33) { host := some .loadFail }).map (fun t => (t.out.host, t.hdu)) =
      some (some .ioError, HeaderUnit.powerOn) := by decide

/-- T84: a host load with a decoder command is no step of the block. -/
theorem test_load_with_decoder :
    stop State.reset { dp := some 0xF000000000, host := some (.load []) } = some .hostLoadWithDecoderCommand := by decide

/-- R37 and R30: reads of no value. -/
theorem test_no_value :
    stop State.powerOn { rp0 := some 0x6000000000 } = some .cellHoldsNoValue ∧
    stop State.reset { probes := [.title] } = some .recordHoldsNoValue ∧
    stop State.reset { probes := [.imageByte 0] } = some (.imageByteHoldsNoValue 0) := by decide

/-- P2: the record bus of the decoded record. -/
theorem test_record_bus :
    titleView (latched (raw 0x33)) = [0x43, 0x4F, 0x46, 0x46, 0x45, 0x45, 0x42, 0x52, 0x45, 0x41, 0x4B] ∧
    vendorView (latched (raw 0x33)) = (true, [0x54, 0x48, 0x51]) ∧ rawVendor (latched (raw 0x33)) = .modern 0x37 0x38 ∧
    romView (latched (raw 0x33)) = { valid := true, num := 1, unit := .mib } ∧
    ramView (latched (raw 0x33)) = { valid := true, kib := 32 } ∧ ramData (ramView (latched (raw 0x33))) = 0x0020 := by decide

/-! ## Cases that meet the hypotheses of the statements: encodings -/

/-- Accepted, the first part of each command's statement, for every row of R75: a word it selects at a port of its class, the same word elsewhere, and a word with a must-be-zero bit. -/
theorem witness_Accepted_register :
    (admission .wp 0x1000000000 = .ok .reset ∧ admission .rp0 0x1000000000 = .error .wrongPort ∧
      admission .wp 0x1000000001 = .error .mustBeZero) ∧
    (admission .rp0 0x2F00000000 = .ok (.getpair 15) ∧ admission .wp 0x2100000000 = .error .wrongPort ∧
      admission .rp1 0x2000000001 = .error .mustBeZero) ∧
    (admission .wp 0x310000BEEF = .ok (.setpair 1 0xBEEF) ∧ admission .rp0 0x3100001234 = .error .wrongPort ∧
      admission .wp 0x3101001234 = .error .mustBeZero) ∧
    (admission .rp1 0x4300000000 = .ok (.getflag 3) ∧ admission .dp 0x4300000000 = .error .wrongPort ∧
      admission .rp1 0x4300000001 = .error .mustBeZero) ∧
    (admission .wp 0x5300000001 = .ok (.setflag 3 1) ∧ admission .rp1 0x5300000001 = .error .wrongPort ∧
      admission .wp 0x5000008001 = .error .mustBeZero) ∧
    (admission .rp0 0x6700000000 = .ok (.getr8 7) ∧ admission .wp 0x6700000000 = .error .wrongPort ∧
      admission .rp0 0x6780000000 = .error .mustBeZero) ∧
    (admission .wp 0x7600000012 = .ok (.setr8 6 0x12) ∧ admission .dp 0x7600000012 = .error .wrongPort ∧
      admission .wp 0x7000000100 = .error .mustBeZero) ∧
    (admission .rp1 0x8100000000 = .ok (.getr16 1) ∧ admission .wp 0x8100000000 = .error .wrongPort ∧
      admission .rp1 0x8100010000 = .error .mustBeZero) ∧
    (admission .wp 0x910000FFFE = .ok (.setr16 1 0xFFFE) ∧ admission .rp0 0x910000FFFE = .error .wrongPort ∧
      admission .wp 0x910100FFFE = .error .mustBeZero) := by decide

/-- The same for the header-decoder rows. -/
theorem witness_Accepted_decoder :
    (admission .dp 0xA000000000 = .ok .decode ∧ admission .wp 0xA000000000 = .error .wrongPort ∧
      admission .dp 0xA100000000 = .error .mustBeZero) ∧
    (admission .dp 0xB033333738 = .ok (.vendor 0x33 0x33 0x3738) ∧ admission .rp0 0xB033333738 = .error .wrongPort ∧
      admission .dp 0xB133333738 = .error .mustBeZero) ∧
    (admission .dp 0xC0EE000000 = .ok (.cartname 0xEE) ∧ admission .wp 0xC0EE000000 = .error .wrongPort ∧
      admission .dp 0xC001010000 = .error .mustBeZero) ∧
    (admission .dp 0xD005000000 = .ok (.romsize 0x05) ∧ admission .rp1 0xD005000000 = .error .wrongPort ∧
      admission .dp 0xD005000001 = .error .mustBeZero) ∧
    (admission .dp 0xE003000000 = .ok (.ramsize 0x03) ∧ admission .wp 0xE003000000 = .error .wrongPort ∧
      admission .dp 0xE003010000 = .error .mustBeZero) ∧
    (admission .dp 0xF0FF00FFFF = .ok (.imgrd 0xFFFFFF) ∧ admission .rp0 0xF0FF00FFFF = .error .wrongPort ∧
      admission .dp 0xF000010000 = .error .mustBeZero) := by decide

theorem witness_DecodeThenEncodeIsIdentity : decode 0x310000BEEF = .ok (.setpair 1 0xBEEF) := by decide

/-- R79 (a), (b), (c), and a legal word. -/
theorem witness_IllegalWordsPerformNothing :
    (0x0FFFFFFFFF : Command).extractLsb' 36 4 = 0 ∧ (∀ r ∈ rows, (0xA100000000 : Command) &&& r.mask ≠ r.pattern) ∧
    (decode 0xA000000000 = .ok .decode ∧ Port.wp ∉ Instr.ports .decode) ∧
    ∃ r ∈ rows, (0xA000000000 : Command) &&& r.mask = r.pattern ∧
      Port.dp ∈ (r.assemble (Fields.ofWord 0xA000000000)).ports := by
  refine ⟨by decide, by decide, by decide, ?_⟩
  exact ⟨rows[9], List.getElem_mem _, by decide, by decide⟩

/-! ## Cases that meet the hypotheses of the statements: the register file -/

/-- For the statements of the eight commands with a selector (GETPAIR to SETR16): the first and the last selector in range, and the
first and the last outside. -/
theorem witness_selector_ranges :
    (pairOf 0).isSome ∧ (pairOf 3).isSome ∧ pairOf 4 = none ∧ pairOf 15 = none ∧ (flagNamed 0).isSome ∧ (flagNamed 3).isSome ∧
    flagNamed 4 = none ∧ flagNamed 15 = none ∧ (reg8Of 0).isSome ∧ (reg8Of 7).isSome ∧ reg8Of 8 = none ∧ reg8Of 15 = none ∧
    (reg16Of 0).isSome ∧ (reg16Of 1).isSome ∧ reg16Of 2 = none ∧ reg16Of 15 = none := by decide

theorem witness_ResetSetsEveryCell :
    (∃ t, exec .reset State.powerOn = .next t) ∧
    ∃ t, cycle { rp0 := some 0x4000000000, wp := some 0x1000000000 } [] State.reset = .next t := ⟨⟨_, rfl⟩, ⟨_, rfl⟩⟩

/-- For GetpairAnswersThePair, GetflagAnswersTheFlag, Getr8AnswersTheCell and Getr16AnswersThePointer: after RESET every cell holds a
value; and the first selectors out of range, with the last. -/
theorem witness_reads :
    State.reset.rfu.held = Held.all ∧ Held.all.f = 0xFF ∧ (∀ k : BitVec 4, k.toNat < 4 → Held.all.f.getLsbD (7 - k.toNat) = true) ∧
    (4 : BitVec 4).toNat = 4 ∧ (15 : BitVec 4).toNat = 15 ∧ (8 : BitVec 4).toNat = 8 ∧ (2 : BitVec 4).toNat = 2 := by decide

theorem witness_SetpairWritesTwoCells : (3 : BitVec 4).toNat < 4 ∧ ∃ t, exec (.setpair 3 0xC0DE) State.powerOn = .next t :=
  ⟨by decide, _, rfl⟩

theorem witness_PairsAndFlagsReadBackAsWritten :
    State.reset.rfu.initialised = true ∧ (3 : BitVec 4).toNat < 4 ∧ pairOf 3 = some .hl ∧
    (State.reset.withDriver [{ wp := some (encode (.setpair 3 0xFFFF)) },
      { rp0 := some (encode (.getpair 3)), rp1 := some (encode (.getpair 3)) }]).rfu.initialised = true ∧
    (State.reset.withDriver [{ wp := some (encode (.setflag 3 1)) },
      { rp0 := some (encode (.getflag 3)), rp1 := some (encode (.getflag 3)) }]).rfu.initialised = true := by decide

theorem witness_RegisterCommandsKeepTheRest :
    (∃ t, exec (.getpair 3) State.reset = .next t) ∧ (∃ t, exec (.getflag 3) State.reset = .next t) ∧
    (∃ t, exec (.getr8 7) State.reset = .next t) ∧ (∃ t, exec (.getr16 1) State.reset = .next t) ∧
    (∃ t, exec (.setpair 3 0xFFFF) State.reset = .next t) ∧ (∃ t, exec (.setflag 3 1) State.reset = .next t) ∧
    (∃ t, exec (.setr8 7 0xFF) State.reset = .next t) ∧ ∃ t, exec (.setr16 1 0xFFFF) State.reset = .next t :=
  ⟨⟨_, rfl⟩, ⟨_, rfl⟩, ⟨_, rfl⟩, ⟨_, rfl⟩, ⟨_, rfl⟩, ⟨_, rfl⟩, ⟨_, rfl⟩, ⟨_, rfl⟩⟩

/-- A step whose write port carries SETPAIR, neither RESET nor SETR16. -/
theorem witness_PointersChangeOnlyByWriteOrReset :
    (∃ t, step (State.reset.withDriver [{ wp := some 0x330000C0DE }]) = .next t) ∧
    decode 0x330000C0DE = .ok (.setpair 3 0xC0DE) := ⟨⟨_, rfl⟩, by decide⟩

/-- A register file in which the low cell of a pair alone holds a value, and one in which one bit of `f` alone does; the last
selectors in range and the first out of range. -/
theorem witness_PowerOnCellsHoldNoValue :
    (holds8 (write8 RegFile.powerOn .c 0xEF) (pairHigh .bc) = false ∧ holds8 (write8 RegFile.powerOn .c 0xEF) (pairLow .bc) = true ∧
      pairOf 1 = some .bc ∧ exec (.getpair 1) (regs (write8 RegFile.powerOn .c 0xEF)) = .fault .cellHoldsNoValue) ∧
    ((writeFlag RegFile.powerOn .zero 1).held.f.getLsbD 7 = true ∧ (writeFlag RegFile.powerOn .zero 1).held.f.getLsbD 4 = false) ∧
    (holds8 (writeFlag RegFile.powerOn .zero 1) .f = false ∧ reg8Of 5 = some .f) ∧
    (holds16 (write16 RegFile.powerOn .pc 0x0100) .sp = false ∧ reg16Of 1 = some .sp) ∧
    4 ≤ (4 : BitVec 4).toNat ∧ 8 ≤ (8 : BitVec 4).toNat ∧ 2 ≤ (2 : BitVec 4).toNat ∧ (0 : BitVec 4) ≠ 1 ∧
    (3 : BitVec 4).toNat < 4 ∧ (7 : BitVec 4).toNat < 8 ∧ (1 : BitVec 4).toNat < 2 ∧ (0 : BitVec 4) ≠ 7 ∧ (0 : BitVec 4) ≠ 3 :=
  ⟨⟨by decide, by decide, by decide, rfl⟩, by decide⟩

/-! ## Cases that meet the hypotheses of the statements: the header decoder -/

/-- No image, and an image one byte too short. -/
theorem witness_DecodeNeedsTheWholeWindow :
    State.reset.hdu.imgValid = false ∧ (holding 0 [] 0x14F).hdu.imgLen < 0x150 := by decide

/-- The window of program P2, in both eras. -/
theorem witness_DecodeLatchesTheHeaderWindow :
    ∀ era ∈ ([0x33, 0x32] : List Byte), (loaded era).hdu.imgValid = true ∧ 0x150 ≤ (loaded era).hdu.imgLen ∧
      ∀ k, k < 0x50 → (Memory.read (loaded era).hdu.img (0x100 + k)).isSome = true := by decide

theorem witness_DecodeWritesBackOnlyTheTitle (era : Byte) (h : era ∈ ([0x33, 0x32] : List Byte)) :
    ∃ t, exec .decode (loaded era) = .next t ∧ t.answer = some done ∧ Memory.read (loaded era).hdu.img 0x14B = some era := by
  simp only [List.mem_cons, List.not_mem_nil, or_false] at h
  rcases h with rfl | rfl <;> exact ⟨_, rfl, rfl, rfl⟩

/-- The era byte of the modern case, after a DECODE that answered OK. -/
theorem witness_LatchedTitleIsTerminated :
    ∃ t, exec .decode (loaded 0x33) = .next t ∧ t.answer = some done ∧ t.hdu.hdr.map (·.legacyVendorCode) = some 0x33 :=
  ⟨_, rfl, rfl, rfl⟩

/-- The last address, one past it, no image, and a DECODE that answered OK. -/
theorem witness_ImgrdReadsOneByte :
    (holding 0 [0x00, 0xC3] 2).hdu.imgLen ≤ (2 : BitVec 24).toNat ∧ State.reset.hdu.imgValid = false ∧
    (1 : BitVec 24).toNat < (holding 0 [0x00, 0xC3] 2).hdu.imgLen ∧
    Memory.read (holding 0 [0x00, 0xC3] 2).hdu.img 1 = some 0xC3 ∧ (holding 0 [0x00, 0xC3] 2).hdu.imgLen ≤ imgMax ∧
    Answers (.imgrd 1) (holding 0 [0x00, 0xC3] 2) { status := .ok, data := 0x00C3, valid := 1 } ∧
    ∃ t, exec .decode (loaded 0x33) = .next t ∧ t.answer = some done :=
  ⟨by decide, rfl, by decide, rfl, Nat.le_trans (by decide : 2 ≤ 0x150) (Nat.le_max_left _ _), rfl, _, rfl, rfl⟩

theorem witness_LookupsKeepTheRest :
    (∃ t, exec (.vendor 0x01 0x33 0x3738) State.reset = .next t) ∧ (∃ t, exec (.cartname 0xEE) State.reset = .next t) ∧
    (∃ t, exec (.romsize 0x09) State.reset = .next t) ∧ (∃ t, exec (.ramsize 0x01) State.reset = .next t) ∧
    ∃ t, exec (.imgrd 1) (holding 0 [0x00, 0xC3] 2) = .next t := ⟨⟨_, rfl⟩, ⟨_, rfl⟩, ⟨_, rfl⟩, ⟨_, rfl⟩, ⟨_, rfl⟩⟩

/-- For RomsizeReportsTheClass and RamsizeReportsTheClass: the first and the last code without a size. -/
theorem witness_size_codes :
    0x08 < (0x09 : Byte).toNat ∧ 0x08 < (0xFF : Byte).toNat ∧ 0x05 < (0x06 : Byte).toNat ∧ 0x05 < (0xFF : Byte).toNat := by decide

/-! ## Cases that meet the hypotheses of the statements: the record bus -/

/-- The image of program P2. -/
def imageM : List Byte := List.replicate 0x100 0x00 ++ window 0x33

/-- The unit after the host loaded it. -/
def unitM : HeaderUnit :=
  { img := Memory.ofBytes 0 imageM, imgLen := 0x150, imgValid := true, hdr := none, hdrValid := false }

/-- The unit after DECODE. -/
def decodedM : HeaderUnit := decoded (raw 0x33) unitM

/-- The reset state with that unit. -/
def stateM : State := State.reset.withHdu decodedM

theorem imageM_length : imageM.length = 0x150 := by decide +kernel

/-- T80: a host load of 0x150 bytes. -/
theorem test_load_image : hostLoad (.load imageM) = (unitM, .ok) := by
  simp only [hostLoad, imageM_length]
  rw [if_pos (show 0x150 ≤ imgMax from Nat.le_max_left _ _)]
  rfl

theorem test_window_image : rawHeader unitM.img = some (raw 0x33) := by decide +kernel

/-- A state with a decoded record that meets the invariant. -/
theorem witness_Inv : stateM.Inv ∧ stateM.hdu.hdr = some (latched (raw 0x33)) ∧ stateM.hdu.hdrValid = true := by
  have h : unitM.Inv := by have := hostLoad_inv (.load imageM); rwa [test_load_image] at this
  exact ⟨⟨by decide, (HduWrites.decode (raw 0x33) rfl test_window_image).inv h, rfl⟩, rfl, rfl⟩

theorem witness_RecordBusCarriesTheRecord :
    (∃ t, cycle { probes := [.imgLen, .hdrValid, .imageByte 0x14F] } [] (loaded 0x33) = .next t) ∧
    decodedM.hdrValid = true ∧ decodedM.hdr = some (latched (raw 0x33)) := ⟨⟨_, rfl⟩, rfl, rfl⟩

theorem witness_LinesWithoutAValueFault :
    HeaderUnit.powerOn.hdrValid = false ∧ HeaderUnit.powerOn.imgValid = false ∧ decodedM.imgLen ≤ 0x150 := by decide

/-- A title whose first NUL is its twelfth byte, in a state that meets the invariant. -/
theorem witness_TitleViewEndsAtTheFirstNul :
    (latched (raw 0x33)).title[11]? = some 0x00 ∧ (∀ i, i < 11 → (latched (raw 0x33)).title[i]? ≠ some 0x00) ∧
    stateM.Inv ∧ stateM.hdu.hdr = some (latched (raw 0x33)) := ⟨by decide, by decide, witness_Inv.1, rfl⟩

theorem witness_PresentationKeepsItsOrder : (raw 0x33).legacyVendorCode = 0x33 ∧ (raw 0x32).legacyVendorCode ≠ 0x33 := by decide

/-! ## Cases that meet the hypotheses of the statements: errors and the step -/

/-- Each status a port answers. -/
theorem witness_StatusCodesAsNumbered :
    Answers (.getpair 4) State.reset (failed .invalidSelector) ∧ Answers .decode State.reset (failed .outOfBounds) ∧
    perform .dp (some 0x0000000000) State.reset = .next { State.reset with answer := some (failed .illegalCommand) } :=
  ⟨rfl, rfl, rfl⟩

theorem witness_ErrorsWriteNothing :
    perform .wp (some 0x3400001234) State.reset = .next { State.reset with answer := some (failed .invalidSelector) } ∧
    (failed .invalidSelector).status ≠ .ok := ⟨rfl, by decide⟩

/-- Two steps with the same words at RP0, WP and DP and different words at RP1. -/
theorem witness_PortsAnswerIndependently :
    (∃ t, cycle { rp0 := some 0x2000000000, rp1 := some 0x2F00000000, wp := some 0x330000C0DE, dp := some 0xD005000000 } []
      State.reset = .next t) ∧
    ∃ t, cycle { rp0 := some 0x2000000000, wp := some 0x330000C0DE, dp := some 0xD005000000 } [] State.reset = .next t :=
  ⟨⟨_, rfl⟩, ⟨_, rfl⟩⟩

/-- One word at each of the four ports. -/
theorem witness_StepRunsTheDecodedCommand :
    (Presents (State.reset.withDriver [presentAlone .rp0 0x2100000000]) .rp0 0x2100000000 [] ∧
      decode 0x2100000000 = .ok (.getpair 1) ∧ Instr.wellFormedAt .rp0 (.getpair 1) = true) ∧
    (Presents (State.reset.withDriver [presentAlone .rp1 0x2100000000]) .rp1 0x2100000000 [] ∧
      Instr.wellFormedAt .rp1 (.getpair 1) = true) ∧
    (Presents (State.reset.withDriver [presentAlone .wp 0x1000000000]) .wp 0x1000000000 [] ∧
      decode 0x1000000000 = .ok .reset ∧ Instr.wellFormedAt .wp .reset = true) ∧
    Presents (State.reset.withDriver [presentAlone .dp 0xA000000000]) .dp 0xA000000000 [] ∧
      decode 0xA000000000 = .ok .decode ∧ Instr.wellFormedAt .dp .decode = true :=
  ⟨⟨rfl, by decide, by decide⟩, ⟨rfl, by decide⟩, ⟨rfl, by decide, by decide⟩, rfl, by decide, by decide⟩

theorem witness_PlacedWordIsPresentedNext :
    decode 0xF001002345 = .ok (.imgrd 0x012345) ∧
    (State.reset.withFetchWord 40 0xF001002345).driver = [{ dp := some 0xF001002345 }] := by decide

/-- A step with all four ports, and one with a host load (T90). -/
theorem witness_StepEqualsPortsInSequence :
    (∃ t, cycle { rp0 := some 0x2300000000, rp1 := some 0x8000000000, wp := some 0x330000C0DE, dp := some 0xA000000000 } []
      (loaded 0x33) = .next t) ∧
    ∃ t, cycle { wp := some 0x910000FFFE, host := some .loadFail } [] State.reset = .next t := ⟨⟨_, rfl⟩, ⟨_, rfl⟩⟩

/-- T85's shape: both read ports read the pair that the write port writes. -/
theorem witness_ReadsSeeTheStartOfTheirStep :
    (∃ t, cycle { rp0 := some 0x2100000000, wp := some 0x3100001234 } [] State.reset = .next t) ∧ (1 : BitVec 4).toNat < 4 ∧
    Answers (.getpair 1) (State.reset.withDriver
      [{ rp0 := some (encode (.getpair 1)), rp1 := some (encode (.getpair 1)), wp := some (encode (.setpair 1 0x1234)) },
        { rp0 := some (encode (.getpair 1)) }]) (answered 0x0000) :=
  ⟨⟨_, rfl⟩, by decide, rfl⟩

/-- Two flags, and one flag twice. -/
theorem witness_SetflagsAccumulateOverSteps :
    (0 : BitVec 4).toNat < 4 ∧ (3 : BitVec 4).toNat < 4 ∧
    (State.reset.withDriver [{ wp := some (encode (.setflag 0 1)) }, { wp := some (encode (.setflag 3 1)) }]).driver =
      { wp := some (encode (.setflag 0 1)) } :: { wp := some (encode (.setflag 3 1)) } :: [] := by decide

/-- Two states with one register file and different images, and the other way round. -/
theorem witness_UnitsShareNoState :
    (∃ t, cycle { rp0 := some 0x2000000000, dp := some 0xF000000143 } [] (loaded 0x33) = .next t) ∧
    (∃ t, cycle { rp0 := some 0x2000000000, dp := some 0xF000000143 } [] State.reset = .next t) ∧
    (∃ t, cycle { rp0 := some 0x2000000000, dp := some 0xF000000143 } [] (flags 0xFF) = .next t) ∧
    (loaded 0x33).rfu = State.reset.rfu ∧ (flags 0xFF).hdu = State.reset.hdu := ⟨⟨_, rfl⟩, ⟨_, rfl⟩, ⟨_, rfl⟩, rfl, rfl⟩

/-! ## Cases that meet the hypotheses of the statements: the host load, invariants and runs -/

/-- An empty image, one of header length, one a byte too long, and a source that could not be read. -/
theorem witness_HostLoadReplacesTheImage :
    ([] : List Byte).length ≤ imgMax ∧ imageM.length ≤ imgMax ∧ imgMax < (List.replicate (imgMax + 1) (0x00 : Byte)).length ∧
    (State.reset.withDriver [{ host := some (.load imageM) }]).driver = { host := some (.load imageM) } :: [] ∧
    HostLoad.loadFail = .loadFail := by
  refine ⟨Nat.zero_le _, ?_, by rw [List.length_replicate]; omega, rfl, rfl⟩
  rw [imageM_length]; exact Nat.le_max_left _ _

theorem witness_HostLoadExcludesTheDecoderPort :
    StepInput.dp { dp := some 0xF000000000, host := some .loadFail } = some 0xF000000000 ∧
    StepInput.dp { rp0 := some 0x2000000000, rp1 := some 0x8000000000, wp := some 0x1000000000, host := some .loadFail } = none ∧
    (∃ a, perform .rp0 (some 0x2000000000) State.reset = .next a) ∧ ∃ b, perform .rp1 (some 0x8000000000) State.reset = .next b :=
  ⟨rfl, rfl, ⟨_, rfl⟩, ⟨_, rfl⟩⟩

/-- RESET, and a host load, in a state that holds a record (T5, T63). -/
theorem witness_ResetAndLoadMayComeAgain :
    Presents (stateM.withDriver [presentAlone .wp 0x1000000000]) .wp 0x1000000000 [] ∧
    (∃ t, step (stateM.withDriver [{ host := some .loadFail }]) = .next t) ∧
    ∃ t, step (stateM.withDriver [{ wp := some 0x1000000000, host := some .loadFail }]) = .next t := ⟨rfl, ⟨_, rfl⟩, ⟨_, rfl⟩⟩

/-- For StepKeepsTheInvariant, StepKeepsTheImageCanonical and StepKeepsEveryCellHeld: an idle step of a state that holds a record, and
a step of the reset state that writes a pair and decodes. -/
theorem witness_StepKeepsTheInvariant :
    (stateM.Inv ∧ ∃ t, step stateM = .next t) ∧
    (State.reset.Inv ∧ Memory.wf State.reset.hdu.img = true ∧ State.reset.rfu.initialised = true ∧
      ∃ t, step (State.reset.withDriver [{ wp := some 0x330000C0DE, dp := some 0xA000000000 }]) = .next t) :=
  ⟨⟨witness_Inv.1, _, rfl⟩,
    ⟨⟨by decide, ⟨Nat.zero_le _, rfl, fun _ => rfl, rfl, fun _ h => (by cases h)⟩, rfl⟩, rfl, by decide, _, rfl⟩⟩

/-- A step that uses every port and reads the record and the image. -/
theorem witness_DutifulStepCompletes :
    stateM.Inv ∧ (stateM.withDriver
      [{ rp0 := some 0x2000000000, rp1 := some 0x6500000000, wp := some 0x1000000000, dp := some 0xA000000000,
         probes := [.titleView, .imageByte 0x14F] }]).dutiful = true := ⟨witness_Inv.1, by decide⟩

theorem witness_RunsFromResetNeverStop :
    ∀ i ∈ [StepInput.idle, { rp0 := some 0x2400000000, dp := some 0xA000000000 }, { host := some .loadFail }],
      StepInput.wellFormed i = true ∧ i.probes = [] := by decide

theorem witness_AssembledWordsAreCommands :
    Assembler.assemble "RP1: GETFLAG C" = some { rp1 := some 0x4300000000 } := by decide

end Sys2Proof.Tests
end

/-! PROOF. The two units share no state (00_scope.md R2). -/

namespace Sys2Proof.Proofs

open Sys2Proof Sys2Proof.Machine Sys2Proof.Claims

/-! ## What a port answers depends on one unit alone -/

/-- A read port answers by the register file alone. -/
theorem perform_read_answer_congr {p : Port} (hp : p = .rp0 ∨ p = .rp1) {w : Option Command} {s s' a a' : State}
    (hx : s.rfu = s'.rfu) (ha : perform p w s = .next a) (ha' : perform p w s' = .next a') : a.answer = a'.answer := by
  obtain ⟨o, ho⟩ := perform_read p hp w s'.rfu
  rw [ho s hx] at ha
  rw [ho s' rfl] at ha'
  cases o with
  | ok r => cases ha; cases ha'; rfl
  | error e => cases ha

/-- The write port leaves the register file, and answers, by the register file alone. -/
theorem perform_write_congr {w : Option Command} {s s' a a' : State} (hx : s.rfu = s'.rfu)
    (ha : perform .wp w s = .next a) (ha' : perform .wp w s' = .next a') : a.rfu = a'.rfu ∧ a.answer = a'.answer := by
  obtain ⟨y, r, -, ho⟩ := perform_write w s'.rfu
  rw [ho s hx] at ha
  rw [ho s' rfl] at ha'
  cases ha
  cases ha'
  exact ⟨rfl, rfl⟩

/-- The decoder port leaves the header decoder unit, and answers, by that unit alone. -/
theorem perform_decoder_congr {w : Option Command} {s s' a a' : State} (hu : s.hdu = s'.hdu)
    (ha : perform .dp w s = .next a) (ha' : perform .dp w s' = .next a') : a.hdu = a'.hdu ∧ a.answer = a'.answer := by
  obtain ⟨o, -, ho⟩ := perform_decoder w s'.hdu
  rw [ho s hu] at ha
  rw [ho s' rfl] at ha'
  cases o with
  | ok yr => cases ha; cases ha'; exact ⟨rfl, rfl⟩
  | error e => cases ha

/-! ## What a step leaves of one unit, and answers at its ports, depends on that unit alone -/

/-- The register file and its three ports after a step depend on the register file before it alone. -/
theorem cycle_rfu_congr {i : StepInput} {rest : List StepInput} {s s' t t' : State} (hx : s.rfu = s'.rfu)
    (ht : cycle i rest s = .next t) (ht' : cycle i rest s' = .next t') :
    t.rfu = t'.rfu ∧ t.out.rp0 = t'.out.rp0 ∧ t.out.rp1 = t'.out.rp1 ∧ t.out.wp = t'.out.wp := by
  obtain ⟨-, rp0, rp1, wp, dp, seen, h0, h1, hw, -, -, rfl⟩ := (cycle_eq_next i rest s t).mp ht
  obtain ⟨-, rp0', rp1', wp', dp', seen', h0', h1', hw', -, -, rfl⟩ := (cycle_eq_next i rest s' t').mp ht'
  obtain ⟨hrfu, hans⟩ := perform_write_congr hx hw hw'
  exact ⟨hrfu, congrArg (Option.map readPart) (perform_read_answer_congr (.inl rfl) hx h0 h0'),
    congrArg (Option.map readPart) (perform_read_answer_congr (.inr rfl) hx h1 h1'), congrArg (Option.map writePart) hans⟩

/-- The header decoder unit, and what DP, the host and a consumer are answered in a step, depend on that unit before it alone. -/
theorem cycle_hdu_congr {i : StepInput} {rest : List StepInput} {s s' t t' : State} (hu : s.hdu = s'.hdu)
    (ht : cycle i rest s = .next t) (ht' : cycle i rest s' = .next t') :
    t.hdu = t'.hdu ∧ t.out.dp = t'.out.dp ∧ t.out.host = t'.out.host ∧ t.out.probes = t'.out.probes := by
  obtain ⟨-, rp0, rp1, wp, dp, seen, -, -, -, hd, hp, rfl⟩ := (cycle_eq_next i rest s t).mp ht
  obtain ⟨-, rp0', rp1', wp', dp', seen', -, -, -, hd', hp', rfl⟩ := (cycle_eq_next i rest s' t').mp ht'
  obtain ⟨hhdu, hans⟩ := perform_decoder_congr hu hd hd'
  have hseen : seen = seen' := by
    rw [hu, hp'] at hp
    cases hp
    rfl
  exact ⟨by simp only [conclude, hhdu], hans, rfl, hseen⟩

/-- Settles O43: each unit's part of a step is a function of that unit and of the input. -/
theorem unitsShareNoState : Obligations.UnitsShareNoState := by
  unfold Obligations.UnitsShareNoState
  exact fun i rest s s' t t' ht ht' => ⟨fun hx => cycle_rfu_congr hx ht ht', fun hu => cycle_hdu_congr hu ht ht'⟩

end Sys2Proof.Proofs

/-! PROOF. The OPEN parameters keep what the spec pins about them (00_scope.md R8; 41_lookup_tables.md R125). -/

namespace Sys2Proof.Proofs

open Sys2Proof Sys2Proof.Machine

/-- A name cut to `n` bytes, or none, has at most `n` bytes. -/
theorem length_cut_name_le (entry : Option Text) (n : Nat) : ((entry.map (List.take n)).getD []).length ≤ n := by
  cases entry with
  | none => exact Nat.zero_le n
  | some name => exact List.length_take_le n name

/-- `NAME_MAX` has room for every name of at most 14 bytes (R8). -/
theorem le_nameMax {n : Nat} (h : n ≤ 14) : n ≤ nameMax := le_max_of_le_left h

/-- `IMG_MAX` keeps the bounds of R8. -/
theorem imgMax_bounds : 0x150 ≤ imgMax ∧ imgMax ≤ 2 ^ 24 :=
  ⟨le_max_left _ _, max_le (by decide) (min_le_right _ _)⟩

/-- The legacy code without an entry is not the pinned one (R125). -/
theorem unmappedLegacy_ne_pinned : unmappedLegacy ≠ 0x01 := by
  unfold unmappedLegacy
  split
  · decide
  · next h => exact fun hc => h (.inl hc)

/-- The legacy table has no entry for that code (R125). -/
theorem legacyVendors_unmappedLegacy : legacyVendors unmappedLegacy = none := by
  rw [legacyVendors, if_neg unmappedLegacy_ne_pinned, if_pos rfl]

/-- Every legacy vendor name keeps the bound (R125). -/
theorem length_legacyVendors_le (c : Byte) : ((legacyVendors c).getD []).length ≤ nameMax := by
  unfold legacyVendors
  split
  · exact le_nameMax (by decide)
  · split
    · exact Nat.zero_le _
    · exact length_cut_name_le _ _

/-- Every modern vendor name keeps the bound (R125). -/
theorem length_modernVendors_le (x y : Byte) : ((modernVendors x y).getD []).length ≤ nameMax := by
  unfold modernVendors
  split
  · exact le_nameMax (by decide)
  · exact length_cut_name_le _ _

/-- Settles O26: the bounds are laid over the raw constants, and the pinned entries come before the raw tables. -/
theorem openParametersKeepTheirBounds : Obligations.OpenParametersKeepTheirBounds := by
  unfold Obligations.OpenParametersKeepTheirBounds
  exact ⟨imgMax_bounds.1, imgMax_bounds.2, le_nameMax le_rfl, rfl, rfl, ⟨_, legacyVendors_unmappedLegacy⟩,
    length_legacyVendors_le, length_modernVendors_le, fun c => length_cut_name_le (Config.cartTypesRaw c) nameMax⟩

end Sys2Proof.Proofs

/-! PROOF. What a selector names, and what a register command does with a named and an unnamed selector (30_encoding.md R78;
42_register_file.md R151 to R158). -/

namespace Sys2Proof.Proofs

open Sys2Proof Sys2Proof.Machine Sys2Proof.Claims

/-! ## Selectors -/

/-- The selectors 0 to 3 name a pair. -/
theorem pairOf_of_lt {p : BitVec 4} : p.toNat < 4 → ∃ P, pairOf p = some P :=
  Option.isSome_iff_exists.mp ∘ (by decide : ∀ p : BitVec 4, p.toNat < 4 → (pairOf p).isSome) p

/-- The selectors 4 to 15 name no pair. -/
theorem pairOf_of_ge {p : BitVec 4} : 4 ≤ p.toNat → pairOf p = none := by revert p; decide

/-- No two selectors name one pair. -/
theorem pairOf_injective {p q : BitVec 4} {P : Pair} (hp : pairOf p = some P) (hq : pairOf q = some P) : q = p :=
  (by decide : ∀ p q : BitVec 4, (pairOf p).isSome → pairOf q = pairOf p → q = p) p q (hp ▸ rfl) (hq.trans hp.symm)

/-- The selectors 0 to 3 name a flag. -/
theorem flagNamed_of_lt {k : BitVec 4} : k.toNat < 4 → ∃ K, flagNamed k = some K :=
  Option.isSome_iff_exists.mp ∘ (by decide : ∀ k : BitVec 4, k.toNat < 4 → (flagNamed k).isSome) k

/-- The selectors 4 to 15 name no flag. -/
theorem flagNamed_of_ge {k : BitVec 4} : 4 ≤ k.toNat → flagNamed k = none := by revert k; decide

/-- No two selectors name one flag. -/
theorem flagNamed_injective {k j : BitVec 4} {K : Flag} (hk : flagNamed k = some K) (hj : flagNamed j = some K) : j = k :=
  (by decide : ∀ k j : BitVec 4, (flagNamed k).isSome → flagNamed j = flagNamed k → j = k) k j (hk ▸ rfl) (hj.trans hk.symm)

/-- The flag of selector `k` stands at bit `7 - k` (R23). -/
theorem flagBit_of_named {k : BitVec 4} {K : Flag} : flagNamed k = some K → flagBit K = 7 - k.toNat := by
  cases K <;> revert k <;> decide

/-- The selectors 0 to 7 name an 8-bit cell. -/
theorem reg8Of_of_lt {r : BitVec 4} : r.toNat < 8 → ∃ R, reg8Of r = some R :=
  Option.isSome_iff_exists.mp ∘ (by decide : ∀ r : BitVec 4, r.toNat < 8 → (reg8Of r).isSome) r

/-- The selectors 8 to 15 name no cell. -/
theorem reg8Of_of_ge {r : BitVec 4} : 8 ≤ r.toNat → reg8Of r = none := by revert r; decide

/-- No two selectors name one cell. -/
theorem reg8Of_injective {r q : BitVec 4} {R : Reg8} (hr : reg8Of r = some R) (hq : reg8Of q = some R) : q = r :=
  (by decide : ∀ r q : BitVec 4, (reg8Of r).isSome → reg8Of q = reg8Of r → q = r) r q (hr ▸ rfl) (hq.trans hr.symm)

/-- The selectors 0 and 1 name a pointer. -/
theorem reg16Of_of_lt {x : BitVec 4} : x.toNat < 2 → ∃ X, reg16Of x = some X :=
  Option.isSome_iff_exists.mp ∘ (by decide : ∀ x : BitVec 4, x.toNat < 2 → (reg16Of x).isSome) x

/-- The selectors 2 to 15 name no pointer. -/
theorem reg16Of_of_ge {x : BitVec 4} : 2 ≤ x.toNat → reg16Of x = none := by revert x; decide

/-- No two selectors name one pointer. -/
theorem reg16Of_injective {x q : BitVec 4} {X : Reg16} (hx : reg16Of x = some X) (hq : reg16Of q = some X) : q = x :=
  (by decide : ∀ x q : BitVec 4, (reg16Of x).isSome → reg16Of q = reg16Of x → q = x) x q (hx ▸ rfl) (hq.trans hx.symm)

/-! ## A read whose selector names a cell: the cell's value, or the fault where it holds none -/

section reads

variable {s : State}

theorem getpair_answers {p : BitVec 4} {P : Pair} {v : Word} (hp : pairOf p = some P) (hv : readPair s.rfu P = some v) :
    Answers (.getpair p) s (answered v) := by
  simp [Answers, exec, execGetpair, hp, hv, respond, State.withAnswer, answered]

theorem getpair_faults {p : BitVec 4} {P : Pair} (hp : pairOf p = some P) (hv : readPair s.rfu P = none) :
    exec (.getpair p) s = .fault .cellHoldsNoValue := by
  simp [exec, execGetpair, hp, hv]

theorem getflag_answers {k : BitVec 4} {K : Flag} {b : BitVec 1} (hk : flagNamed k = some K) (hb : readFlag s.rfu K = some b) :
    Answers (.getflag k) s (answered (b.zeroExtend 16)) := by
  simp [Answers, exec, execGetflag, hk, hb, respond, State.withAnswer, answered]

theorem getflag_faults {k : BitVec 4} {K : Flag} (hk : flagNamed k = some K) (hb : readFlag s.rfu K = none) :
    exec (.getflag k) s = .fault .cellHoldsNoValue := by
  simp [exec, execGetflag, hk, hb]

theorem getr8_answers {r : BitVec 4} {R : Reg8} {v : Byte} (hr : reg8Of r = some R) (hv : read8 s.rfu R = some v) :
    Answers (.getr8 r) s (answered ((0 : Byte) ++ v)) := by
  have hz : v.zeroExtend 16 = (0 : Byte) ++ v := BitVec.setWidth_eq_append (by decide)
  simpa [Answers, exec, execGetr8, hr, hv, respond, State.withAnswer, answered] using hz

theorem getr8_faults {r : BitVec 4} {R : Reg8} (hr : reg8Of r = some R) (hv : read8 s.rfu R = none) :
    exec (.getr8 r) s = .fault .cellHoldsNoValue := by
  simp [exec, execGetr8, hr, hv]

theorem getr16_answers {x : BitVec 4} {X : Reg16} {v : Word} (hx : reg16Of x = some X) (hv : read16 s.rfu X = some v) :
    Answers (.getr16 x) s (answered v) := by
  simp [Answers, exec, execGetr16, hx, hv, respond, State.withAnswer, answered]

theorem getr16_faults {x : BitVec 4} {X : Reg16} (hx : reg16Of x = some X) (hv : read16 s.rfu X = none) :
    exec (.getr16 x) s = .fault .cellHoldsNoValue := by
  simp [exec, execGetr16, hx, hv]

/-! ## A read whose selector names no cell: InvalidSelector -/

theorem getpair_unnamed {p : BitVec 4} (hp : pairOf p = none) : Answers (.getpair p) s (failed .invalidSelector) := by
  simp [Answers, exec, execGetpair, hp, raise, respond, statusOnly, State.withAnswer, failed]

theorem getflag_unnamed {k : BitVec 4} (hk : flagNamed k = none) : Answers (.getflag k) s (failed .invalidSelector) := by
  simp [Answers, exec, execGetflag, hk, raise, respond, statusOnly, State.withAnswer, failed]

theorem getr8_unnamed {r : BitVec 4} (hr : reg8Of r = none) : Answers (.getr8 r) s (failed .invalidSelector) := by
  simp [Answers, exec, execGetr8, hr, raise, respond, statusOnly, State.withAnswer, failed]

theorem getr16_unnamed {x : BitVec 4} (hx : reg16Of x = none) : Answers (.getr16 x) s (failed .invalidSelector) := by
  simp [Answers, exec, execGetr16, hx, raise, respond, statusOnly, State.withAnswer, failed]

/-! ## A write whose selector names a cell -/

theorem setpair_leaves {p : BitVec 4} {P : Pair} (hp : pairOf p = some P) (v : Word) :
    Leaves (.setpair p v) s (writePair s.rfu P v) := by
  simp [Leaves, exec, execSetpair, hp, respond, statusOnly, State.withAnswer, State.withRfu, done]

theorem setflag_leaves {k : BitVec 4} {K : Flag} (hk : flagNamed k = some K) (b : BitVec 1) :
    Leaves (.setflag k b) s (writeFlag s.rfu K b) := by
  simp [Leaves, exec, execSetflag, hk, respond, statusOnly, State.withAnswer, State.withRfu, done]

theorem setr8_leaves {r : BitVec 4} {R : Reg8} (hr : reg8Of r = some R) (v : Byte) :
    Leaves (.setr8 r v) s (write8 s.rfu R v) := by
  simp [Leaves, exec, execSetr8, hr, respond, statusOnly, State.withAnswer, State.withRfu, done]

theorem setr16_leaves {x : BitVec 4} {X : Reg16} (hx : reg16Of x = some X) (v : Word) :
    Leaves (.setr16 x v) s (write16 s.rfu X v) := by
  simp [Leaves, exec, execSetr16, hx, respond, statusOnly, State.withAnswer, State.withRfu, done]

end reads

end Sys2Proof.Proofs

/-! PROOF. A read of a cell that holds no value is a model fault, and at power-on no cell holds one (00_scope.md R14;
10_state.md R37; 70_reset_and_hazards.md R220). -/

namespace Sys2Proof.Proofs

open Sys2Proof Sys2Proof.Machine Sys2Proof.Claims

/-! ## Cells that hold no value -/

/-- An 8-bit cell that holds no value reads as none. -/
theorem read8_of_not_holds8 {x : RegFile} {r : Reg8} (h : holds8 x r = false) : read8 x r = none := by simp [read8, h]

/-- A pointer that holds no value reads as none. -/
theorem read16_of_not_holds16 {x : RegFile} {r : Reg16} (h : holds16 x r = false) : read16 x r = none := by simp [read16, h]

/-- A pair reads as none where its high or its low cell does (R22). -/
theorem readPair_of_cell_none {x : RegFile} {p : Pair} (h : read8 x (pairHigh p) = none ∨ read8 x (pairLow p) = none) :
    readPair x p = none := by
  rcases h with h | h
  · simp [readPair, h]
  · cases hi : read8 x (pairHigh p) <;> simp [readPair, h, hi]

/-- A flag whose bit of `f` is given reads as none where that bit holds no value (R23). -/
theorem readFlag_of_bit_clear {x : RegFile} {k : Flag} (h : x.held.f.getLsbD (flagBit k) = false) : readFlag x k = none := by
  have hne : flagOf x.held.f k ≠ 1 := by
    intro h1
    have hbit := congrArg (BitVec.getLsbD · 0) h1
    simp [flagOf, h] at hbit
  rw [readFlag, if_neg hne]

/-! ## The register file at power-on, and after one write (R37) -/

@[simp] theorem read8_powerOn (r : Reg8) : read8 RegFile.powerOn r = none := by cases r <;> rfl
@[simp] theorem read16_powerOn (r : Reg16) : read16 RegFile.powerOn r = none := by cases r <;> rfl
@[simp] theorem readFlag_powerOn (k : Flag) : readFlag RegFile.powerOn k = none := by cases k <;> rfl

/-- At power-on no pair holds a value. -/
@[simp] theorem readPair_powerOn (p : Pair) : readPair RegFile.powerOn p = none :=
  readPair_of_cell_none (.inl (read8_powerOn _))

/-- The high cell of a pair is in no other pair (R22). -/
theorem pairHigh_not_in_other {p q : Pair} (h : q ≠ p) : pairHigh q ≠ pairHigh p ∧ pairHigh q ≠ pairLow p := by
  revert h; cases p <;> cases q <;> decide

/-- A write of a pair keeps a pair whose high cell holds no value so. -/
theorem readPair_writePair_none {x : RegFile} {p q : Pair} (v : Word) (hne : q ≠ p) (hx : read8 x (pairHigh q) = none) :
    readPair (writePair x p v) q = none := by
  obtain ⟨hhigh, hlow⟩ := pairHigh_not_in_other hne
  exact readPair_of_cell_none (.inl ((read8_writePair_other x p _ v hhigh hlow).trans hx))

/-- One flag alone does not make `f` hold a value (R37). -/
theorem read8_f_writeFlag_powerOn (k : Flag) (b : BitVec 1) : read8 (writeFlag RegFile.powerOn k b) .f = none :=
  read8_of_not_holds8 (by cases k <;> rfl)

/-! ## After one write at power-on, what it wrote answers and the rest still stops -/

/-- After one SETR8. -/
theorem setr8_powerOn (r : BitVec 4) (v : Byte) (hr : r.toNat < 8) :
    ∃ t, exec (.setr8 r v) State.powerOn = .next t ∧ Answers (.getr8 r) t (answered ((0 : Byte) ++ v)) ∧
      ∀ q : BitVec 4, q.toNat < 8 → q ≠ r → exec (.getr8 q) t = .fault .cellHoldsNoValue := by
  obtain ⟨R, hR⟩ := reg8Of_of_lt hr
  refine ⟨_, setr8_leaves hR v, getr8_answers hR (read8_write8_same _ _ _), fun q hq hne => ?_⟩
  obtain ⟨Q, hQ⟩ := reg8Of_of_lt hq
  have hQR : Q ≠ R := fun h => hne (reg8Of_injective hR (h ▸ hQ))
  exact getr8_faults hQ ((read8_write8_other _ _ _ _ hQR).trans (read8_powerOn Q))

/-- After one SETR16. -/
theorem setr16_powerOn (x : BitVec 4) (v : Word) (hx : x.toNat < 2) :
    ∃ t, exec (.setr16 x v) State.powerOn = .next t ∧ Answers (.getr16 x) t (answered v) ∧
      ∀ q : BitVec 4, q.toNat < 2 → q ≠ x → exec (.getr16 q) t = .fault .cellHoldsNoValue := by
  obtain ⟨X, hX⟩ := reg16Of_of_lt hx
  refine ⟨_, setr16_leaves hX v, getr16_answers hX (read16_write16_same _ _ _), fun q hq hne => ?_⟩
  obtain ⟨Q, hQ⟩ := reg16Of_of_lt hq
  have hQX : Q ≠ X := fun h => hne (reg16Of_injective hX (h ▸ hQ))
  exact getr16_faults hQ ((read16_write16_other _ _ _ _ hQX).trans (read16_powerOn Q))

/-- After one SETPAIR. -/
theorem setpair_powerOn (p : BitVec 4) (v : Word) (hp : p.toNat < 4) :
    ∃ t, exec (.setpair p v) State.powerOn = .next t ∧ Answers (.getpair p) t (answered v) ∧
      ∀ q : BitVec 4, q.toNat < 4 → q ≠ p → exec (.getpair q) t = .fault .cellHoldsNoValue := by
  obtain ⟨P, hP⟩ := pairOf_of_lt hp
  refine ⟨_, setpair_leaves hP v, getpair_answers hP (readPair_writePair_same _ _ _), fun q hq hne => ?_⟩
  obtain ⟨Q, hQ⟩ := pairOf_of_lt hq
  have hQP : Q ≠ P := fun h => hne (pairOf_injective hP (h ▸ hQ))
  exact getpair_faults hQ (readPair_writePair_none v hQP (read8_powerOn _))

/-- After one SETFLAG; `f` as a whole still stops. -/
theorem setflag_powerOn (k : BitVec 4) (b : BitVec 1) (hk : k.toNat < 4) :
    ∃ t, exec (.setflag k b) State.powerOn = .next t ∧ Answers (.getflag k) t (answered (b.zeroExtend 16)) ∧
      exec (.getr8 5) t = .fault .cellHoldsNoValue ∧
      ∀ j : BitVec 4, j.toNat < 4 → j ≠ k → exec (.getflag j) t = .fault .cellHoldsNoValue := by
  obtain ⟨K, hK⟩ := flagNamed_of_lt hk
  refine ⟨_, setflag_leaves hK b, getflag_answers hK (readFlag_writeFlag_same _ _ _),
    getr8_faults rfl (read8_f_writeFlag_powerOn K b), fun j hj hne => ?_⟩
  obtain ⟨J, hJ⟩ := flagNamed_of_lt hj
  have hJK : J ≠ K := fun h => hne (flagNamed_injective hK (h ▸ hJ))
  exact getflag_faults hJ ((readFlag_writeFlag_other _ _ _ _ hJK).trans (readFlag_powerOn J))

/-! ## The statement -/

/-- GETFLAG stops where its bit of `f` holds no value (R37). -/
theorem getflag_of_bit_clear {s : State} {k : BitVec 4} (hk : k.toNat < 4) (hf : s.rfu.held.f.getLsbD (7 - k.toNat) = false) :
    exec (.getflag k) s = .fault .cellHoldsNoValue := by
  obtain ⟨K, hK⟩ := flagNamed_of_lt hk
  exact getflag_faults hK (readFlag_of_bit_clear (flagBit_of_named hK ▸ hf))

/-- Settles O18: a read answers what its cell reads as, and a write gives a value to its own cells alone. -/
theorem powerOnCellsHoldNoValue : Obligations.PowerOnCellsHoldNoValue := by
  unfold Obligations.PowerOnCellsHoldNoValue
  refine ⟨fun s => ⟨fun p P hp h => ?_, fun k => getflag_of_bit_clear, fun r R hr h => ?_, fun x X hx h => ?_⟩,
    fun q => ⟨fun h => ⟨getpair_unnamed (pairOf_of_ge h), getflag_unnamed (flagNamed_of_ge h)⟩,
      fun h => getr8_unnamed (reg8Of_of_ge h), fun h => getr16_unnamed (reg16Of_of_ge h)⟩,
    fun p hp => ?_, fun k hk => ?_, fun r hr => ?_, fun x hx => ?_,
    setr8_powerOn, setr16_powerOn, setpair_powerOn, setflag_powerOn, ⟨_, rfl, rfl⟩⟩
  · exact getpair_faults hp (readPair_of_cell_none (h.imp read8_of_not_holds8 read8_of_not_holds8))
  · exact getr8_faults hr (read8_of_not_holds8 h)
  · exact getr16_faults hx (read16_of_not_holds16 h)
  · obtain ⟨P, hP⟩ := pairOf_of_lt hp
    exact getpair_faults hP (readPair_powerOn P)
  · obtain ⟨K, hK⟩ := flagNamed_of_lt hk
    exact getflag_faults hK (readFlag_powerOn K)
  · obtain ⟨R, hR⟩ := reg8Of_of_lt hr
    exact getr8_faults hR (read8_powerOn R)
  · obtain ⟨X, hX⟩ := reg16Of_of_lt hx
    exact getr16_faults hX (read16_powerOn X)

end Sys2Proof.Proofs

/-! PROOF. What every step keeps (10_state.md R28, R30, R37; 20_memory.md R57; 40_header_decoder.md R103), and that the two start
states have it. -/

namespace Sys2Proof.Proofs

open Sys2Proof Sys2Proof.Machine

/-! ## One step -/

/-- The units after a step (R223), as `cycle_units` says them of a cycle. -/
theorem step_units {s t : State} (h : step s = .next t) :
    RfuWrites s.rfu t.rfu ∧ (HduWrites s.hdu t.hdu ∨ ∃ l, t.hdu = (hostLoad l).1) ∧ t.answer = none ∧
      t.driver = s.driver.tail :=
  cycle_units _ _ _ _ (step_eq s ▸ h)

/-- Settles O49: the write port keeps the form of the register file; DECODE keeps the unit's invariant, and a host load
establishes it. -/
theorem stepKeepsTheInvariant : Obligations.StepKeepsTheInvariant := by
  unfold Obligations.StepKeepsTheInvariant
  intro s t hs h
  obtain ⟨hrfu, hhdu, hanswer, -⟩ := step_units h
  have hunit : t.hdu.Inv := by
    rcases hhdu with hw | ⟨l, hl⟩
    · exact hw.inv hs.unit
    · exact hl ▸ hostLoad_inv l
  exact ⟨hrfu.canonical hs.regs, hunit, hanswer⟩

/-! ## The canonical form of the image -/

/-- A decoder command keeps the canonical form: DECODE's write-back is a fill. -/
theorem wf_of_hduWrites {u y : HeaderUnit} (h : HduWrites u y) (hu : Memory.wf u.img = true) : Memory.wf y.img = true := by
  cases h with
  | keep => exact hu
  | decode raw hb hr => exact Memory.wf_fill _ _ _ hu

/-- A host load leaves a canonical image: the one its invariant describes. -/
theorem wf_hostLoad (l : HostLoad) : Memory.wf (hostLoad l).1.img = true :=
  Memory.wf_of_addresses _ _ (hostLoad_inv l).addresses

/-- Settles O50: a decoder command keeps the form, and a host load establishes it. -/
theorem stepKeepsTheImageCanonical : Obligations.StepKeepsTheImageCanonical := by
  unfold Obligations.StepKeepsTheImageCanonical
  intro s t hs h
  obtain ⟨-, hw | ⟨l, hl⟩, -, -⟩ := step_units h
  · exact wf_of_hduWrites hw hs
  · exact hl ▸ wf_hostLoad l

/-! ## The cells that hold a value -/

/-- A register file is initialised when its mask has every cell (R37). -/
theorem initialised_iff (x : RegFile) : x.initialised = true ↔ x.held = Held.all := decide_eq_true_iff

/-- Settles O51: no write takes the value of a cell away. -/
theorem stepKeepsEveryCellHeld : Obligations.StepKeepsEveryCellHeld := by
  unfold Obligations.StepKeepsEveryCellHeld
  intro s t hs h
  rw [initialised_iff] at hs ⊢
  exact (step_units h).1.held hs

/-! ## The start states -/

/-- The header decoder unit at power-on meets its invariant (R38): it is the empty unit that a failed load leaves (R57). -/
theorem powerOn_unit_inv : HeaderUnit.powerOn.Inv := hostLoad_inv .loadFail

/-- Settles O48: both start states have the unit of power-on, and a register file in the form. -/
theorem startStatesMeetTheInvariant : Obligations.StartStatesMeetTheInvariant := by
  unfold Obligations.StartStatesMeetTheInvariant
  exact ⟨⟨by decide, powerOn_unit_inv, rfl⟩, ⟨by decide, powerOn_unit_inv, rfl⟩, rfl, (initialised_iff _).mpr rfl⟩

/-- Settles O47: the start states are written out as R36 and R38 say, and the step with the RESET word at WP computes. -/
theorem resetStateIsTheDocumentedOne : Obligations.ResetStateIsTheDocumentedOne := by
  unfold Obligations.ResetStateIsTheDocumentedOne
  exact ⟨rfl, rfl, rfl, rfl, rfl, Memory.read_nil, rfl, rfl, _, rfl, rfl, rfl, rfl⟩

end Sys2Proof.Proofs

/-! PROOF. What the register commands leave alone (10_state.md R25, R26; 42_register_file.md R160, R162), command by command and
over a whole step. -/

namespace Sys2Proof.Proofs

open Sys2Proof Sys2Proof.Machine Sys2Proof.Claims

/-! ## The register file after a write command: written where the selector names a cell, as it was where it names none -/

section writes

variable {s t : State}

theorem setpair_unnamed {p : BitVec 4} (hp : pairOf p = none) (v : Word) :
    Answers (.setpair p v) s (failed .invalidSelector) := by
  simp [Answers, exec, execSetpair, hp, raise, respond, statusOnly, State.withAnswer, failed]

theorem setflag_unnamed {k : BitVec 4} (hk : flagNamed k = none) (b : BitVec 1) :
    Answers (.setflag k b) s (failed .invalidSelector) := by
  simp [Answers, exec, execSetflag, hk, raise, respond, statusOnly, State.withAnswer, failed]

theorem setr8_unnamed {r : BitVec 4} (hr : reg8Of r = none) (v : Byte) :
    Answers (.setr8 r v) s (failed .invalidSelector) := by
  simp [Answers, exec, execSetr8, hr, raise, respond, statusOnly, State.withAnswer, failed]

theorem setr16_unnamed {x : BitVec 4} (hx : reg16Of x = none) (v : Word) :
    Answers (.setr16 x v) s (failed .invalidSelector) := by
  simp [Answers, exec, execSetr16, hx, raise, respond, statusOnly, State.withAnswer, failed]

/-- A command that only answers keeps the register file. -/
theorem rfu_of_answers {i : Instr} {r : Response} (h : Answers i s r) (ht : exec i s = .next t) : t.rfu = s.rfu := by
  cases h.symm.trans ht
  rfl

/-- A command that leaves a register file leaves that one. -/
theorem rfu_of_leaves {i : Instr} {x : RegFile} (h : Leaves i s x) (ht : exec i s = .next t) : t.rfu = x := by
  cases h.symm.trans ht
  rfl

theorem setpair_rfu {p : BitVec 4} {v : Word} (ht : exec (.setpair p v) s = .next t) :
    t.rfu = (pairOf p).elim s.rfu (writePair s.rfu · v) := by
  cases hp : pairOf p with
  | none => exact rfu_of_answers (setpair_unnamed hp v) ht
  | some P => exact rfu_of_leaves (setpair_leaves hp v) ht

theorem setflag_rfu {k : BitVec 4} {b : BitVec 1} (ht : exec (.setflag k b) s = .next t) :
    t.rfu = (flagNamed k).elim s.rfu (writeFlag s.rfu · b) := by
  cases hk : flagNamed k with
  | none => exact rfu_of_answers (setflag_unnamed hk b) ht
  | some K => exact rfu_of_leaves (setflag_leaves hk b) ht

theorem setr8_rfu {r : BitVec 4} {v : Byte} (ht : exec (.setr8 r v) s = .next t) :
    t.rfu = (reg8Of r).elim s.rfu (write8 s.rfu · v) := by
  cases hr : reg8Of r with
  | none => exact rfu_of_answers (setr8_unnamed hr v) ht
  | some R => exact rfu_of_leaves (setr8_leaves hr v) ht

theorem setr16_rfu {x : BitVec 4} {v : Word} (ht : exec (.setr16 x v) s = .next t) :
    t.rfu = (reg16Of x).elim s.rfu (write16 s.rfu · v) := by
  cases hx : reg16Of x with
  | none => exact rfu_of_answers (setr16_unnamed hx v) ht
  | some X => exact rfu_of_leaves (setr16_leaves hx v) ht

end writes

/-! ## The pointers -/

/-- The file `y` has the pointers of `x`: both whether they hold a value and their bits. -/
def KeepsPointers (x y : RegFile) : Prop := ∀ q, read16 y q = read16 x q ∧ bits16 y q = bits16 x q

theorem KeepsPointers.refl (x : RegFile) : KeepsPointers x x := fun _ => ⟨rfl, rfl⟩

theorem KeepsPointers.trans {x y z : RegFile} (h : KeepsPointers x y) (h' : KeepsPointers y z) : KeepsPointers x z :=
  fun q => ⟨(h' q).1.trans (h q).1, (h' q).2.trans (h q).2⟩

theorem write8_keepsPointers (x : RegFile) (r : Reg8) (v : Byte) : KeepsPointers x (write8 x r v) :=
  fun q => ⟨read16_write8 x r q v, by cases r <;> cases q <;> rfl⟩

theorem writePair_keepsPointers (x : RegFile) (p : Pair) (v : Word) : KeepsPointers x (writePair x p v) :=
  (write8_keepsPointers x _ _).trans (write8_keepsPointers _ _ _)

theorem writeFlag_keepsPointers (x : RegFile) (k : Flag) (b : BitVec 1) : KeepsPointers x (writeFlag x k b) := by
  intro q
  cases q <;> exact ⟨rfl, rfl⟩

/-- A write through a selector keeps the pointers, if it does so where the selector names a cell. -/
theorem elim_keepsPointers {α : Type} (o : Option α) {x : RegFile} {f : α → RegFile} (h : ∀ c, KeepsPointers x (f c)) :
    KeepsPointers x (o.elim x f) := by
  cases o with
  | none => exact .refl x
  | some c => exact h c

section pointers

variable {s t : State}

theorem setpair_keepsPointers {p : BitVec 4} {v : Word} (ht : exec (.setpair p v) s = .next t) :
    KeepsPointers s.rfu t.rfu :=
  setpair_rfu ht ▸ elim_keepsPointers _ fun P => writePair_keepsPointers s.rfu P v

theorem setflag_keepsPointers {k : BitVec 4} {b : BitVec 1} (ht : exec (.setflag k b) s = .next t) :
    KeepsPointers s.rfu t.rfu :=
  setflag_rfu ht ▸ elim_keepsPointers _ fun K => writeFlag_keepsPointers s.rfu K b

theorem setr8_keepsPointers {r : BitVec 4} {v : Byte} (ht : exec (.setr8 r v) s = .next t) :
    KeepsPointers s.rfu t.rfu :=
  setr8_rfu ht ▸ elim_keepsPointers _ fun R => write8_keepsPointers s.rfu R v

/-- Of the write commands only RESET and SETR16 reach the pointers (R26). -/
theorem exec_write_keepsPointers {i : Instr} (hi : i.ports = [.wp]) (hreset : i ≠ .reset)
    (hsetr16 : ∀ x v, i ≠ .setr16 x v) (ht : exec i s = .next t) : KeepsPointers s.rfu t.rfu := by
  cases i with
  | reset => exact absurd rfl hreset
  | setpair p v => exact setpair_keepsPointers ht
  | setflag k b => exact setflag_keepsPointers ht
  | setr8 r v => exact setr8_keepsPointers ht
  | setr16 x v => exact absurd rfl (hsetr16 x v)
  | getpair _ | getflag _ | getr8 _ | getr16 _ | decode | vendor _ _ _ | cartname _ | romsize _ | ramsize _
  | imgrd _ => simp [Instr.ports] at hi

/-- All that a port can do: answer, or perform a command of its class. -/
theorem perform_eq_next {p : Port} {w : Option Command} (ht : perform p w s = .next t) :
    (∃ r, t = s.withAnswer r) ∨ ∃ v i, w = some v ∧ decode v = .ok i ∧ p ∈ i.ports ∧ exec i s = .next t := by
  cases w with
  | none => cases ht; exact .inl ⟨none, rfl⟩
  | some v =>
    cases ha : admission p v with
    | error e => exact .inl ⟨_, (raise_eq_next .illegalCommand s t).mp (by simpa [perform, ha] using ht)⟩
    | ok i =>
      obtain ⟨hd, hp⟩ := (admission_ok p v i).mp ha
      exact .inr ⟨v, i, rfl, hd, hp, by simpa [perform, ha] using ht⟩

/-- The write port keeps the pointers unless its word is RESET or SETR16 (R26). -/
theorem perform_write_keepsPointers {w : Option Command}
    (hw : ∀ v, w = some v → decode v ≠ .ok .reset ∧ ∀ x y, decode v ≠ .ok (.setr16 x y))
    (ht : perform .wp w s = .next t) : KeepsPointers s.rfu t.rfu := by
  rcases perform_eq_next ht with ⟨r, rfl⟩ | ⟨v, i, hv, hd, hp, he⟩
  · exact .refl s.rfu
  · obtain ⟨hreset, hsetr16⟩ := hw v hv
    have hi : i.ports = [.wp] := by
      rcases ports_cases i with h | h | h
      · simp [h] at hp
      · exact h
      · simp [h] at hp
    exact exec_write_keepsPointers hi (fun h => hreset (h ▸ hd)) (fun x y h => hsetr16 x y (h ▸ hd)) he

end pointers

/-- Settles O17: the register file after a step is the one that the write port leaves. -/
theorem pointersChangeOnlyByWriteOrReset : Obligations.PointersChangeOnlyByWriteOrReset := by
  unfold Obligations.PointersChangeOnlyByWriteOrReset
  intro s t h hw
  rw [step_eq] at h
  obtain ⟨-, rp0, rp1, wp, dp, seen, -, -, hwp, -, -, rfl⟩ := (cycle_eq_next _ _ s t).mp h
  have hkeep : KeepsPointers s.rfu wp.rfu := perform_write_keepsPointers hw hwp
  exact hkeep

/-! ## The frames of the register commands -/

section frames

variable {s t : State}

/-- A read command changes the response alone. -/
theorem exec_read_frame {i : Instr} (hi : i.ports = [.rp0, .rp1]) (ht : exec i s = .next t) :
    t = { s with answer := t.answer } := by
  obtain ⟨o, ho⟩ := exec_read i hi s.rfu
  rw [ho s rfl] at ht
  cases o with
  | ok r => cases ht; rfl
  | error e => cases ht

/-- A write command changes the register file and the response alone. -/
theorem exec_write_frame {i : Instr} (hi : i.ports = [.wp]) (ht : exec i s = .next t) :
    t = { s with rfu := t.rfu, answer := t.answer } := by
  obtain ⟨y, r, -, ho⟩ := exec_write i hi s.rfu
  rw [ho s rfl] at ht
  cases ht
  rfl

/-- SETPAIR keeps the 8-bit cells outside the pair. -/
theorem setpair_keeps_read8 {p : BitVec 4} {v : Word} (ht : exec (.setpair p v) s = .next t) {q : Reg8}
    (hq : ∀ P, pairOf p = some P → q ≠ pairHigh P ∧ q ≠ pairLow P) : read8 t.rfu q = read8 s.rfu q := by
  rw [setpair_rfu ht]
  cases hp : pairOf p with
  | none => rfl
  | some P =>
    obtain ⟨hhigh, hlow⟩ := hq P hp
    exact read8_writePair_other _ _ _ _ hhigh hlow

/-- SETFLAG keeps the 8-bit cells but `f`. -/
theorem setflag_keeps_read8 {k : BitVec 4} {b : BitVec 1} (ht : exec (.setflag k b) s = .next t) {q : Reg8} (hq : q ≠ .f) :
    read8 t.rfu q = read8 s.rfu q := by
  rw [setflag_rfu ht]
  cases flagNamed k with
  | none => rfl
  | some K => exact read8_writeFlag_other _ _ _ _ hq

/-- SETFLAG keeps the other flags. -/
theorem setflag_keeps_readFlag {k : BitVec 4} {b : BitVec 1} (ht : exec (.setflag k b) s = .next t) {j : Flag}
    (hj : flagNamed k ≠ some j) : readFlag t.rfu j = readFlag s.rfu j := by
  rw [setflag_rfu ht]
  cases hk : flagNamed k with
  | none => rfl
  | some K => exact readFlag_writeFlag_other _ _ _ _ fun h => hj (h ▸ hk)

/-- SETR8 keeps the other 8-bit cells. -/
theorem setr8_keeps_read8 {r : BitVec 4} {v : Byte} (ht : exec (.setr8 r v) s = .next t) {q : Reg8}
    (hq : reg8Of r ≠ some q) : read8 t.rfu q = read8 s.rfu q := by
  rw [setr8_rfu ht]
  cases hr : reg8Of r with
  | none => rfl
  | some R => exact read8_write8_other _ _ _ _ fun h => hq (h ▸ hr)

/-- SETR16 keeps the 8-bit cells. -/
theorem setr16_keeps_read8 {x : BitVec 4} {v : Word} (ht : exec (.setr16 x v) s = .next t) (q : Reg8) :
    read8 t.rfu q = read8 s.rfu q := by
  rw [setr16_rfu ht]
  cases reg16Of x with
  | none => rfl
  | some X => exact read8_write16 _ _ _ _

/-- SETR16 keeps the other pointer. -/
theorem setr16_keeps_read16 {x : BitVec 4} {v : Word} (ht : exec (.setr16 x v) s = .next t) {q : Reg16}
    (hq : reg16Of x ≠ some q) : read16 t.rfu q = read16 s.rfu q := by
  rw [setr16_rfu ht]
  cases hx : reg16Of x with
  | none => rfl
  | some X => exact read16_write16_other _ _ _ _ fun h => hq (h ▸ hx)

end frames

/-- Settles O16: the frame of a command's class, and for each write what its destination leaves alone. -/
theorem registerCommandsKeepTheRest : Obligations.RegisterCommandsKeepTheRest := by
  unfold Obligations.RegisterCommandsKeepTheRest
  intro s t
  refine ⟨fun _ => exec_read_frame rfl, fun _ => exec_read_frame rfl, fun _ => exec_read_frame rfl,
    fun _ => exec_read_frame rfl, fun p v ht => ?_, fun k b ht => ?_, fun r v ht => ?_, fun x v ht => ?_⟩
  · exact ⟨exec_write_frame rfl ht, fun q => (setpair_keepsPointers ht q).1, fun _ => setpair_keeps_read8 ht⟩
  · exact ⟨exec_write_frame rfl ht, fun q => (setflag_keepsPointers ht q).1, fun _ => setflag_keeps_read8 ht,
      fun _ => setflag_keeps_readFlag ht⟩
  · exact ⟨exec_write_frame rfl ht, fun q => (setr8_keepsPointers ht q).1, fun _ => setr8_keeps_read8 ht⟩
  · exact ⟨exec_write_frame rfl ht, setr16_keeps_read8 ht, fun _ => setr16_keeps_read16 ht⟩

end Sys2Proof.Proofs

/-! PROOF. DECODE on an image that holds the header window (10_state.md R29; 30_encoding.md R72; 40_header_decoder.md R101 to
R103). -/

namespace Sys2Proof.Proofs

open Sys2Proof Sys2Proof.Machine Sys2Proof.Claims

/-- DECODE writes back at the addresses that R103 names. -/
theorem titleWriteBack_eq_titleStores (era : Byte) : titleWriteBack era = titleStores era := by
  by_cases he : era = 0x33
  · subst he
    rfl
  · rw [titleWriteBack, titleNuls, titleStores, eraSentinel, if_neg he, if_neg he]
    rfl

/-- The normalised title byte by byte (R102): NUL at 15, and at 11 to 14 in the modern era. -/
theorem normaliseTitle_eq (era : Byte) (g : Nat → Byte) :
    normaliseTitle era ((List.range 16).map g) =
      (List.range 16).map fun i => if i = 15 ∨ (11 ≤ i ∧ era = 0x33) then 0x00 else g i := by
  by_cases he : era = 0x33
  · subst he
    rfl
  · rw [normaliseTitle, titleNuls, eraSentinel, if_neg he]
    simp only [he, and_false, or_false]
    rfl

/-- DECODE in bounds, with the window that it reads. -/
theorem decode_latches {s : State} {raw : HeaderRecord} (hb : headerInBounds s.hdu = true)
    (hr : rawHeader s.hdu.img = some raw) :
    exec .decode s = .next { s with hdu := decoded raw s.hdu, answer := some done } := by
  simp [exec, execDecode, hb, hr, respond, statusOnly, State.withHdu, State.withAnswer, done]

/-- Settles O20: the window is read as its bytes, and its title is normalised by its era byte. -/
theorem decodeLatchesTheHeaderWindow : Obligations.DecodeLatchesTheHeaderWindow := by
  unfold Obligations.DecodeLatchesTheHeaderWindow
  intro s b hvalid hlen hwindow
  rw [decode_latches ((headerInBounds_iff _).mpr ⟨hvalid, hlen⟩) (rawHeader_eq _ b hwindow)]
  simp only [decoded, latched, titleWriteBack_eq_titleStores, normaliseTitle_eq]
  rfl

end Sys2Proof.Proofs

/-! PROOF. What a consumer reads (00_scope.md R14; 10_state.md R28, R30, R33; 41_lookup_tables.md R137 to R139). -/

namespace Sys2Proof.Proofs

open Sys2Proof Sys2Proof.Machine

/-- A line of a latched record carries its value (R33). -/
theorem fromRecord_latched {u : HeaderUnit} {h : HeaderRecord} (hvalid : u.hdrValid = true) (hh : u.hdr = some h)
    (g : HeaderRecord → ProbeValue) : fromRecord u g = .next (g h) := by
  rw [fromRecord, busRecord, if_pos hvalid, hh, orFault_some]

/-- While HDR_VALID = 0 a line of the record holds no value (R30). -/
theorem fromRecord_invalid {u : HeaderUnit} (hvalid : u.hdrValid = false) (g : HeaderRecord → ProbeValue) :
    fromRecord u g = .fault .recordHoldsNoValue := by
  rw [fromRecord, busRecord, if_neg (by simp [hvalid]), orFault_none]

/-- No byte at or beyond IMG_LEN, nor any while IMG_VALID = 0, holds a value for a consumer (R28). -/
theorem imageByte_outside {u : HeaderUnit} {k : Nat} (h : u.imgValid = false ∨ u.imgLen ≤ k) : imageByte u k = none := by
  rw [imageByte, if_neg]
  rcases h with h | h
  · simp [h]
  · simp [Nat.not_lt.mpr h]

/-- The values that a step answers a consumer with are those of the unit at its start. -/
theorem cycle_probes {i : StepInput} {rest : List StepInput} {s t : State} (h : cycle i rest s = .next t) :
    probeAll s.hdu i.probes = .next t.out.probes := by
  obtain ⟨-, rp0, rp1, wp, dp, seen, -, -, -, -, hseen, rfl⟩ := (cycle_eq_next i rest s t).mp h
  exact hseen

/-- Settles O31: every line of the record is a function of the latched record, and the views are those of R137 to R139. -/
theorem recordBusCarriesTheRecord : Obligations.RecordBusCarriesTheRecord := by
  unfold Obligations.RecordBusCarriesTheRecord
  refine ⟨fun _ _ _ _ => cycle_probes, fun u => ⟨rfl, rfl, rfl, fun h hvalid hh => ?_⟩⟩
  have line := fromRecord_latched hvalid hh
  exact ⟨line _, line _, line _, line _, line _, line _, line _, line _, line _, line _, line _, line _, line _,
    line _, line _, line _, line _, line _⟩

/-- Settles O32: all 18 lines read the record through `fromRecord`, and an image byte is read through `imageByte`. -/
theorem linesWithoutAValueFault : Obligations.LinesWithoutAValueFault := by
  unfold Obligations.LinesWithoutAValueFault
  refine fun u => ⟨fun hvalid p hp => ?_, fun k hk => ?_⟩
  · fin_cases hp <;> exact fromRecord_invalid hvalid _
  · rw [probe, imageByte_outside hk, orFault_none]

end Sys2Proof.Proofs

/-! PROOF. The host load (20_memory.md R57, R58). -/

namespace Sys2Proof.Proofs

open Sys2Proof Sys2Proof.Machine

/-- The unit after a host load that fails: no byte holds a value (R57). -/
def unloaded : HeaderUnit := { img := [], imgLen := 0, imgValid := false, hdr := none, hdrValid := false }

theorem hostLoad_fits {bytes : List Byte} (h : bytes.length ≤ imgMax) :
    hostLoad (.load bytes) =
      ({ img := Memory.ofBytes 0 bytes, imgLen := bytes.length, imgValid := true, hdr := none, hdrValid := false }, .ok) :=
  if_pos h

theorem hostLoad_fails {l : HostLoad} (h : l = .loadFail ∨ ∃ bytes : List Byte, imgMax < bytes.length ∧ l = .load bytes) :
    hostLoad l = (unloaded, .ioError) := by
  rcases h with rfl | ⟨bytes, hlong, rfl⟩
  · rfl
  · exact if_neg (Nat.not_le.mpr hlong)

/-- A step with a host load and nothing else goes on from every state, and replaces the header decoder unit (R57, R223). -/
theorem step_hostLoad_alone {s : State} {l : HostLoad} {rest : List StepInput} (h : s.driver = { host := some l } :: rest) :
    step s = .next { rfu := s.rfu, hdu := (hostLoad l).1, driver := rest, answer := none,
                     out := { host := some (hostLoad l).2 } } := by
  rw [step_eq, h]
  rfl

/-- Settles O44: the step leaves the unit that `hostLoad` makes, and bytes laid out from address 0 read back by their index. -/
theorem hostLoadReplacesTheImage : Obligations.HostLoadReplacesTheImage := by
  unfold Obligations.HostLoadReplacesTheImage
  refine fun s rest => ⟨fun bytes hfits hdriver => ⟨_, step_hostLoad_alone hdriver, ?_⟩,
    fun l hfails hdriver => ⟨_, step_hostLoad_alone hdriver, ?_⟩⟩
  · rw [hostLoad_fits hfits]
    refine ⟨rfl, rfl, rfl, rfl, rfl, rfl, fun k => ?_⟩
    simp [Memory.read_ofBytes]
  · rw [hostLoad_fails hfails]
    exact ⟨rfl, rfl, rfl, rfl, rfl, rfl, fun k => rfl⟩

end Sys2Proof.Proofs

/-! PROOF. The decoder-port commands that write nothing (20_memory.md R55, R56; 41_lookup_tables.md R124, R126, R132, R135). -/

namespace Sys2Proof.Proofs

open Sys2Proof Sys2Proof.Machine

section lookups

variable {s t : State}

/-- Answering changes the response alone. -/
theorem respond_frame {r : Response} (ht : Host.Outcome.next (respond r s) = (.next t : Result)) :
    t = { s with answer := t.answer } := by
  cases ht
  rfl

/-- IMGRD answers a byte of the image, or that there is none, and changes the response alone (R56). -/
theorem imgrd_frame {addr : BitVec 24} (ht : exec (.imgrd addr) s = .next t) : t = { s with answer := t.answer } := by
  rw [exec, execImgrd] at ht
  split at ht
  · obtain ⟨b, -, hb⟩ := (orFault_eq_next _ _ _ _).mp ht
    exact respond_frame hb
  · exact respond_frame ht

/-- Every decoder-port command but DECODE changes the response alone. -/
theorem exec_lookup_frame {i : Instr} (hi : i.ports = [.dp]) (hdecode : i ≠ .decode) (ht : exec i s = .next t) :
    t = { s with answer := t.answer } := by
  cases i with
  | vendor _ _ _ | cartname _ | romsize _ | ramsize _ => exact respond_frame ht
  | imgrd _ => exact imgrd_frame ht
  | decode => exact absurd rfl hdecode
  | reset | getpair _ | setpair _ _ | getflag _ | setflag _ _ | getr8 _ | setr8 _ _ | getr16 _ | setr16 _ _ =>
    simp [Instr.ports] at hi

end lookups

/-- Settles O24: the five commands are the decoder port's, and none of them is DECODE. -/
theorem lookupsKeepTheRest : Obligations.LookupsKeepTheRest := by
  unfold Obligations.LookupsKeepTheRest
  exact fun s t => ⟨fun _ _ _ => exec_lookup_frame rfl nofun, fun _ => exec_lookup_frame rfl nofun,
    fun _ => exec_lookup_frame rfl nofun, fun _ => exec_lookup_frame rfl nofun, fun _ => exec_lookup_frame rfl nofun⟩

end Sys2Proof.Proofs

/-! PROOF. The opcode table, the decoder and the encoder (30_encoding.md R75, R76, R79, R81). -/

namespace Sys2Proof.Proofs

open Sys2Proof Sys2Proof.Laws

/-! ## Decode of encode -/

/-- The word of every command selects a row, which reads the command back: one law per command. -/
theorem encode_selects_its_row (i : Instr) : EncodeSelectsItsRow.Statement i := by
  cases i with
  | reset => exact EncodeSelectsItsRow.reset
  | getpair p => exact EncodeSelectsItsRow.getpair p
  | setpair p v => exact EncodeSelectsItsRow.setpair p v
  | getflag k => exact EncodeSelectsItsRow.getflag k
  | setflag k b => exact EncodeSelectsItsRow.setflag k b
  | getr8 r => exact EncodeSelectsItsRow.getr8 r
  | setr8 r v => exact EncodeSelectsItsRow.setr8 r v
  | getr16 x => exact EncodeSelectsItsRow.getr16 x
  | setr16 x v => exact EncodeSelectsItsRow.setr16 x v
  | decode => exact EncodeSelectsItsRow.decode
  | vendor legacyCode eraFlag modernCode => exact EncodeSelectsItsRow.vendor legacyCode eraFlag modernCode
  | cartname code => exact EncodeSelectsItsRow.cartname code
  | romsize code => exact EncodeSelectsItsRow.romsize code
  | ramsize code => exact EncodeSelectsItsRow.ramsize code
  | imgrd addr => exact EncodeSelectsItsRow.imgrd addr

@[simp] theorem decode_encode (i : Instr) : decode (encode i) = .ok i := by
  obtain ⟨r, hr, hs, ha⟩ := encode_selects_its_row i
  rw [decode_of_selects r hr _ hs, ha]

/-- Settles O1: the decoder reads the one row that the command's word selects. -/
theorem encodeThenDecodeIsIdentity : Obligations.EncodeThenDecodeIsIdentity := by
  unfold Obligations.EncodeThenDecodeIsIdentity
  exact decode_encode

/-- Settles O3: each of the words is the word of its command. -/
theorem specWordsDecodeAsWritten : Obligations.SpecWordsDecodeAsWritten := by
  unfold Obligations.SpecWordsDecodeAsWritten
  exact ⟨decode_encode .reset, decode_encode (.getpair 1), decode_encode (.setpair 1 0xBEEF), decode_encode (.getflag 3),
    decode_encode (.setflag 3 1), decode_encode (.getr8 7), decode_encode (.setr8 6 0x12), decode_encode (.getr16 1),
    decode_encode (.setr16 1 0xFFFE), decode_encode .decode, decode_encode (.vendor 0x01 0x32 0x3738),
    decode_encode (.cartname 0xEE), decode_encode (.romsize 0x05), decode_encode (.ramsize 0x03),
    decode_encode (.imgrd 0x012345)⟩

/-! ## Encode of decode -/

/-! The masks of whole fields, as literals. -/

theorem and_nibbleMask (x : BitVec 4) : x &&& 0xF#4 = x := BitVec.and_allOnes
theorem and_byteMask (x : Byte) : x &&& 0xFF#8 = x := BitVec.and_allOnes
theorem and_wordMask (x : Word) : x &&& 0xFFFF#16 = x := BitVec.and_allOnes

/-- A field whose high bits must be zero is its low bits, zero-extended. -/
theorem zero_append_low {n m : Nat} {x mask : BitVec (n + m)} (hm : mask.extractLsb' m n = BitVec.allOnes n)
    (hx : x &&& mask = 0) : (0 : BitVec n) ++ x.extractLsb' 0 m = x := by
  have hhigh : x.extractLsb' m n = 0 := by
    calc x.extractLsb' m n = (x &&& mask).extractLsb' m n := by rw [BitVec.extractLsb'_and, hm, BitVec.and_allOnes]
      _ = 0 := by rw [hx]; exact BitVec.extractLsb'_zero
  rw [← hhigh, BitVec.extractLsb'_append_extractLsb']

theorem flagOperand_eq {x : Word} (h : x &&& 0xFFFE#16 = 0#16) : 0#15 ++ x.extractLsb' 0 1 = x :=
  zero_append_low (by decide) h

theorem cellOperand_eq {x : Word} (h : x &&& 0xFF00#16 = 0#16) : 0#8 ++ x.extractLsb' 0 8 = x :=
  zero_append_low (by decide) h

theorem addressOperand_high (x : Byte) (y : Word) : BitVec.extractLsb' (n := 24) 16 8 (x ++ y) = x :=
  BitVec.extractLsb'_append_eq_left

theorem addressOperand_low (x : Byte) (y : Word) : BitVec.extractLsb' (n := 24) 0 16 (x ++ y) = y :=
  BitVec.extractLsb'_append_eq_right

/-- Every field of a word that selects a row is an operand, or what the row's pattern says (R75, R76). -/
theorem fields_assemble {r : Row} (hr : r ∈ rows) {w : Command} (hs : r.selects w = true) :
    (r.assemble (Fields.ofWord w)).fields = Fields.ofWord w := by
  obtain ⟨hop, hsel, hopa, hopb, hopd⟩ := (Row.selects_iff r w).mp hs
  clear hs
  generalize Fields.ofWord w = x at *
  cases x
  simp only [rows, registerRows, decoderRows, List.cons_append, List.nil_append, List.mem_cons, List.not_mem_nil, or_false] at hr
  rcases hr with rfl | rfl | rfl | rfl | rfl | rfl | rfl | rfl | rfl | rfl | rfl | rfl | rfl | rfl | rfl <;>
    simp_all [Fields.ofWord, Instr.fields, and_nibbleMask, and_byteMask, and_wordMask, flagOperand_eq, cellOperand_eq,
      addressOperand_high, addressOperand_low]

theorem encode_of_decode {w : Command} {i : Instr} (h : decode w = .ok i) : encode i = w := by
  obtain ⟨r, hr, hs, rfl⟩ := decode_ok w i h
  rw [encode, fields_assemble hr hs, Fields.toWord_ofWord]

/-- Settles O2: a word is its fields, and those of a word that selects a row are the fields of the row's command. -/
theorem decodeThenEncodeIsIdentity : Obligations.DecodeThenEncodeIsIdentity := by
  unfold Obligations.DecodeThenEncodeIsIdentity
  exact fun _ _ => encode_of_decode

/-! ## The rows are disjoint -/

/-- A list whose keys differ, and are all `a`, has at most one entry. -/
theorem length_le_one_of_keys {α β : Type} {l : List α} {f : α → β} {a : β} (hn : (l.map f).Nodup) (ha : ∀ x ∈ l, f x = a) :
    l.length ≤ 1 := by
  rw [List.map_congr_left ha, List.map_const', List.nodup_replicate] at hn
  exact hn

/-- Settles O4: the rows that a word selects all have the word's OP, and no two rows have the same OP. -/
theorem everyWordSelectsAtMostOneRow : Obligations.EveryWordSelectsAtMostOneRow := by
  unfold Obligations.EveryWordSelectsAtMostOneRow
  refine ⟨rfl, fun w => ?_⟩
  refine length_le_one_of_keys ((List.filter_sublist.map _).nodup rows_op_nodup) (a := (Fields.ofWord w).op) fun r hr => ?_
  obtain ⟨hmem, hs⟩ := List.mem_filter.mp hr
  exact (Row.selects_op r hmem w hs).symm

end Sys2Proof.Proofs

/-! PROOF. Illegal words (30_encoding.md R79; 60_exceptions.md R203). -/

namespace Sys2Proof.Proofs

open Sys2Proof Sys2Proof.Machine Sys2Proof.Claims

/-- A word that decodes to no command of the port's class is turned away. -/
theorem admission_error {p : Port} {w : Command} (h : ∀ i, decode w = .ok i → p ∉ i.ports) :
    ∃ e, admission p w = .error e := by
  cases ha : admission p w with
  | error e => exact ⟨e, rfl⟩
  | ok i =>
    obtain ⟨hd, hp⟩ := (admission_ok p w i).mp ha
    exact absurd hp (h i hd)

/-- A word that is turned away answers IllegalCommand and nothing else (R203). -/
theorem perform_turned_away {p : Port} {w : Command} {e : Illegal} (h : admission p w = .error e) (s : State) :
    perform p (some w) s = .next { s with answer := some (failed .illegalCommand) } := by
  simp only [perform, h]
  rfl

/-- A word that is admitted is performed as its command. -/
theorem perform_admitted {p : Port} {w : Command} {i : Instr} (h : admission p w = .ok i) (s : State) :
    perform p (some w) s = exec i s := by
  simp only [perform, h]

/-- Each of the three kinds of illegal word decodes to no command of the port's class (R79 (a), (b), (c)). -/
theorem not_in_class_of_illegal {p : Port} {w : Command}
    (h : w.extractLsb' 36 4 = 0 ∨ (∀ r ∈ rows, w &&& r.mask ≠ r.pattern) ∨ ∃ i, decode w = .ok i ∧ p ∉ i.ports)
    (i : Instr) (hi : decode w = .ok i) : p ∉ i.ports := by
  rcases h with hop | hrow | ⟨j, hj, hp⟩
  · rw [decode_reserved w hop] at hi
    cases hi
  · obtain ⟨r, hr, hs, -⟩ := decode_ok w i hi
    exact absurd (eq_of_beq hs) (hrow r hr)
  · rw [hj] at hi
    cases hi
    exact hp

/-- Settles O5: an illegal word is turned away at the port, and every other word is admitted as the command of its row. -/
theorem illegalWordsPerformNothing : Obligations.IllegalWordsPerformNothing := by
  unfold Obligations.IllegalWordsPerformNothing
  refine fun p w s => ⟨fun hillegal => ?_, fun r hr hs hp => ?_⟩
  · obtain ⟨e, he⟩ := admission_error (not_in_class_of_illegal hillegal)
    exact perform_turned_away he s
  · have hd : decode w = .ok (r.assemble (Fields.ofWord w)) := decode_of_selects r hr w (beq_iff_eq.mpr hs)
    exact perform_admitted ((admission_ok p w _).mpr ⟨hd, hp⟩) s

end Sys2Proof.Proofs

/-! PROOF. A word placed in front of the driver's list (30_encoding.md R73, R74; 00_scope.md R12). -/

namespace Sys2Proof.Proofs

open Sys2Proof Sys2Proof.Machine Sys2Proof.Claims

/-- The number of a 40-bit word has no bits above the word. -/
theorem ofNat_toNat_mod (w : Command) : BitVec.ofNat 40 (w.toNat % 2 ^ 40) = w := by
  rw [Nat.mod_eq_of_lt w.isLt, BitVec.ofNat_toNat, BitVec.setWidth_eq]

theorem decodeTableWord_of_decode {w : Command} {i : Instr} (h : decode w = .ok i) :
    decodeTableWord 40 w.toNat = some i := by
  rw [decodeTableWord, ofNat_toNat_mod, if_pos (Nat.mod_lt _ (by decide)), h]

/-- The port chosen for a command is one of its class (R74). -/
theorem wellFormedAt_portFor {w : Command} {i : Instr} (h : decode w = .ok i) : i.wellFormedAt (portFor w) = true := by
  rw [portFor, h]
  cases i <;> rfl

theorem withFetchWord_eq (s : State) (w : Command) :
    s.withFetchWord 40 w.toNat = s.withDriver (presentAlone (portFor w) w :: s.driver) := by
  rw [State.withFetchWord, ofNat_toNat_mod]

/-- Settles O39: the word is presented alone at the port chosen for it. -/
theorem placedWordIsPresentedNext : Obligations.PlacedWordIsPresentedNext := by
  unfold Obligations.PlacedWordIsPresentedNext
  refine fun s w i h => ⟨decodeTableWord_of_decode h, portFor w, wellFormedAt_portFor h, ?_, ?_⟩
  · rw [withFetchWord_eq]
    rfl
  · rw [withFetchWord_eq]
    rfl

end Sys2Proof.Proofs

/-! PROOF. The written form of a step (30_encoding.md R83, R84; 70_reset_and_hazards.md R228). -/

namespace Sys2Proof.Proofs

open Sys2Proof Sys2Proof.Machine Sys2Proof.Machine.Assembler

/-- The word that a step presents at a port. -/
def wordAt (i : StepInput) : Port → Option Command
  | .rp0 => i.rp0
  | .rp1 => i.rp1
  | .wp => i.wp
  | .dp => i.dp

/-- Every word that a step presents is the word of a command. -/
def PresentsCommands (i : StepInput) : Prop := ∀ p w, wordAt i p = some w → ∃ c, encode c = w

theorem idle_presentsCommands : PresentsCommands .idle := by
  intro p w hw
  cases p <;> cases hw

/-- `putAt` changes the word at its own port alone. -/
theorem wordAt_putAt {p : Port} {w : Command} {i j : StepInput} (h : putAt p w i = some j) (q : Port) :
    wordAt j q = if q = p then some w else wordAt i q := by
  cases p <;>
    (obtain ⟨-, hj⟩ := Option.ite_none_right_eq_some.mp h
     cases hj
     cases q <;> rfl)

theorem putAt_presentsCommands {p : Port} {c : Instr} {i j : StepInput} (hi : PresentsCommands i)
    (h : putAt p (encode c) i = some j) : PresentsCommands j := by
  intro q w hw
  rw [wordAt_putAt h] at hw
  split at hw
  · exact ⟨c, Option.some.inj hw⟩
  · exact hi q w hw

/-- All that an item can do: add a host load, or put a command's word at a port (R83). -/
theorem item_cases {ts : List Token} {i j : StepInput} (h : item ts i = some j) :
    (∃ l, j = { i with host := some l }) ∨ ∃ p c, putAt p (encode c) i = some j := by
  unfold item at h
  split at h
  · split at h
    · obtain ⟨-, h⟩ := Option.ite_none_right_eq_some.mp h
      obtain ⟨l, -, rfl⟩ := Option.map_eq_some_iff.mp h
      exact .inl ⟨l, rfl⟩
    · split at h
      · next p mnemonic ops _ =>
        obtain ⟨c, -, hput⟩ := Option.bind_eq_some_iff.mp h
        exact .inr ⟨p, c, hput⟩
      · cases h
  · cases h

theorem item_presentsCommands {ts : List Token} {i j : StepInput} (hi : PresentsCommands i) (h : item ts i = some j) :
    PresentsCommands j := by
  rcases item_cases h with ⟨l, rfl⟩ | ⟨p, c, hput⟩
  · exact fun p w hw => hi p w (by cases p <;> exact hw)
  · exact putAt_presentsCommands hi hput

theorem itemsInto_presentsCommands {us : List (List Token)} {i j : StepInput} (hi : PresentsCommands i)
    (h : itemsInto us i = some j) : PresentsCommands j := by
  induction us generalizing i with
  | nil => cases h; exact hi
  | cons u us ih =>
    obtain ⟨k, hitem, hrest⟩ := Option.bind_eq_some_iff.mp h
    exact ih (item_presentsCommands hi hitem) hrest

/-- What assembles is a step of the block, made of items put into an idle step (R83, R228). -/
theorem assemble_cases {text : String} {i : StepInput} (h : assemble text = some i) :
    i.wellFormed = true ∧ ∃ us, itemsInto us .idle = some i := by
  obtain ⟨j, hstep, hwf⟩ := Option.bind_eq_some_iff.mp h
  obtain ⟨hwf, hij⟩ := Option.ite_none_right_eq_some.mp hwf
  cases hij
  refine ⟨hwf, ?_⟩
  split at hstep
  · obtain ⟨-, hitems⟩ := Option.ite_none_right_eq_some.mp hstep
    exact ⟨_, hitems⟩
  · exact ⟨[lex text.toList []], by simp [itemsInto, hstep]⟩

/-- Settles O55: every item of a text that puts a word at a port puts the word of a command. -/
theorem assembledWordsAreCommands : Obligations.AssembledWordsAreCommands := by
  unfold Obligations.AssembledWordsAreCommands
  intro text i h
  obtain ⟨hwf, us, hus⟩ := assemble_cases h
  have hcommands : PresentsCommands i := itemsInto_presentsCommands idle_presentsCommands hus
  refine ⟨hwf, fun w hw => ?_⟩
  obtain ⟨p, hp⟩ : ∃ p, wordAt i p = some w := by
    rcases hw with hw | hw | hw | hw
    · exact ⟨.rp0, hw⟩
    · exact ⟨.rp1, hw⟩
    · exact ⟨.wp, hw⟩
    · exact ⟨.dp, hw⟩
  obtain ⟨c, rfl⟩ := hcommands p w hp
  exact ⟨c, decode_encode c, rfl⟩

/-- Settles O54: the assembler runs on each of the seventeen texts. -/
theorem writtenStepsAssembleToTheirWords : Obligations.WrittenStepsAssembleToTheirWords := by
  unfold Obligations.WrittenStepsAssembleToTheirWords
  refine ⟨?_, ?_, ?_, ?_, ?_, ?_, ?_, ?_, ?_, ?_, ?_, ?_, ?_, ?_, ?_, ?_, ?_⟩ <;> decide

end Sys2Proof.Proofs

/-! PROOF. Admission of the words that carry a row's OP (30_encoding.md R75, R79). -/

namespace Sys2Proof.Proofs

open Sys2Proof Sys2Proof.Machine Sys2Proof.Claims

/-- A word whose row is of another class is turned away for its port (R79 (c)). -/
theorem admission_wrongPort {p : Port} {w : Command} {i : Instr} (hd : decode w = .ok i) (hp : p ∉ i.ports) :
    admission p w = .error .wrongPort := by
  simp [admission, hd, Instr.wellFormedAt, hp]

/-- A word with a must-be-zero bit set is turned away at every port (R79 (b)). -/
theorem admission_mustBeZero {p : Port} {w : Command} (hd : decode w = .error .mustBeZero) :
    admission p w = .error .mustBeZero := by
  simp only [admission, hd]

/-- Every row of the table is admitted as R75 and R76 say, where its commands are of one class. -/
theorem accepted_of_row {r : Row} (hr : r ∈ rows) {ports : List Port} (hports : ∀ x, (r.assemble x).ports = ports) :
    Accepted r.pattern r.mask ports fun w => r.assemble (Fields.ofWord w) := by
  intro p w hop
  by_cases hs : w &&& r.mask = r.pattern
  · have hd : decode w = .ok (r.assemble (Fields.ofWord w)) := decode_of_selects r hr w (beq_iff_eq.mpr hs)
    rw [if_pos hs]
    by_cases hp : p ∈ ports
    · rw [if_pos hp]
      exact (admission_ok p w _).mpr ⟨hd, (hports _).symm ▸ hp⟩
    · rw [if_neg hp]
      exact admission_wrongPort hd ((hports _).symm ▸ hp)
  · rw [if_neg hs]
    exact admission_mustBeZero (decode_mustBeZero r hr w hop (beq_eq_false_iff_ne.mpr hs))

end Sys2Proof.Proofs

/-! PROOF. What DECODE leaves of the image and of the latch (40_header_decoder.md R100, R103, R104). -/

namespace Sys2Proof.Proofs

open Sys2Proof Sys2Proof.Machine Sys2Proof.Claims

/-! ## Writing one value at several addresses -/

/-- The second write of a value finds it at its address. At each entry the address is below, at or above the entry's. -/
theorem write_idem (m : List Host.Cell) (k : Nat) (v : Byte) :
    Memory.write (Memory.write m k v) k v = Memory.write m k v := by
  induction m with
  | nil => simp [Memory.write]
  | cons c m ih => grind [Memory.write]

/-- Writes of one value may change places, in any image. At each entry both addresses are below, at or above the entry's. -/
theorem write_comm (m : List Host.Cell) (j k : Nat) (v : Byte) :
    Memory.write (Memory.write m j v) k v = Memory.write (Memory.write m k v) j v := by
  induction m with
  | nil => grind [Memory.write]
  | cons c m ih => grind [Memory.write]

/-- A write may come before or after a filling with the same value. -/
theorem fill_write (m : List Host.Cell) (ks : List Nat) (k : Nat) (v : Byte) :
    Memory.fill (Memory.write m k v) ks v = Memory.write (Memory.fill m ks v) k v := by
  induction ks generalizing m with
  | nil => rfl
  | cons j ks ih => rw [Memory.fill_cons, write_comm, ih, Memory.fill_cons]

/-- Filling the same addresses again changes nothing, in any image. -/
theorem fill_idem (m : List Host.Cell) (ks : List Nat) (v : Byte) :
    Memory.fill (Memory.fill m ks v) ks v = Memory.fill m ks v := by
  induction ks generalizing m with
  | nil => rfl
  | cons k ks ih => rw [Memory.fill_cons, Memory.fill_cons, fill_write, ih, ← fill_write, write_idem]

/-! ## The title in the window -/

/-- The title of a window that was read, byte by byte (R71). -/
theorem rawHeader_title {m : List Host.Cell} {raw : HeaderRecord} (h : rawHeader m = some raw) :
    Memory.bytes m 0x134 16 = some raw.title := by
  obtain ⟨b, hb⟩ := rawHeader_bytes m raw h
  rw [rawHeader_eq m b hb] at h
  cases h
  exact Memory.bytes_eq m 0x134 16 _ fun i hi => hb _ (by omega) (by omega)

/-- The era byte of a window that was read (R72). -/
theorem rawHeader_legacyVendorCode {m : List Host.Cell} {raw : HeaderRecord} (h : rawHeader m = some raw) :
    Memory.read m 0x14B = some raw.legacyVendorCode := by
  obtain ⟨b, hb⟩ := rawHeader_bytes m raw h
  rw [rawHeader_eq m b hb] at h
  cases h
  exact hb 0x14B (by decide) (by decide)

theorem titleIndex_mem_titleStores (era : Byte) {i : Nat} (h : i = 15 ∨ (era = 0x33 ∧ 11 ≤ i ∧ i ≤ 15)) :
    0x134 + i ∈ titleStores era := by
  rcases h with rfl | ⟨rfl, h1, h2⟩
  · unfold titleStores
    split <;> decide
  · interval_cases i <;> decide

/-- The title's text ends at or before any NUL of the title (R140). -/
theorem length_titleView_le {h : HeaderRecord} {i : Nat} (hnul : h.title[i]? = some 0x00) : (titleView h).length ≤ i := by
  obtain ⟨_, hbyte⟩ := List.getElem?_eq_some_iff.mp hnul
  rw [titleView, List.takeWhile_eq_take_findIdx_not]
  refine (List.length_take_le _ _).trans (Nat.le_of_not_lt fun hlt => ?_)
  simpa [hbyte] using List.not_of_lt_findIdx hlt

/-! ## The unit after DECODE -/

section decoded

variable {u : HeaderUnit} {raw : HeaderRecord}

theorem read_decoded (raw : HeaderRecord) (u : HeaderUnit) (k : Nat) :
    Memory.read (decoded raw u).img k = if k ∈ titleStores raw.legacyVendorCode then some 0x00 else Memory.read u.img k := by
  rw [decoded, titleWriteBack_eq_titleStores, Memory.read_fill]

/-- The window that DECODE leaves in the image is the latched record (R103). -/
theorem rawHeader_decoded (hr : rawHeader u.img = some raw) : rawHeader (decoded raw u).img = some (latched raw) :=
  rawHeader_fill u.img raw hr

/-- The latched title is the title that DECODE leaves in the image (R103). -/
theorem title_decoded (hr : rawHeader u.img = some raw) :
    Memory.bytes (decoded raw u).img 0x134 16 = some (latched raw).title :=
  rawHeader_title (rawHeader_decoded hr)

/-- The latched title is NUL wherever DECODE stores NUL (R102, R103). -/
theorem latched_title_nul (hr : rawHeader u.img = some raw) {i : Nat}
    (h : i = 15 ∨ (raw.legacyVendorCode = 0x33 ∧ 11 ≤ i ∧ i ≤ 15)) : (latched raw).title[i]? = some 0x00 := by
  rw [← Memory.bytes_getElem _ _ _ _ (title_decoded hr) i (by omega), read_decoded,
    if_pos (titleIndex_mem_titleStores _ h)]

/-- A second DECODE finds the unit as the first one left it (R104 (d)). -/
theorem decoded_decoded (raw : HeaderRecord) (u : HeaderUnit) : decoded (latched raw) (decoded raw u) = decoded raw u := by
  rw [decoded, latched_latched]
  simp only [decoded, latched, fill_idem]

end decoded

/-! ## The command -/

section command

variable {s t : State}

/-- DECODE without the whole window in the image (R100). -/
theorem decode_outOfBounds (hb : headerInBounds s.hdu = false) : Answers .decode s (failed .outOfBounds) := by
  simp only [Answers, exec, execDecode, hb]
  rfl

/-- All that a DECODE that answered OK can have done: it read a window in bounds and latched it. -/
theorem decode_done (ht : exec .decode s = .next t) (hok : t.answer = some done) :
    ∃ raw, headerInBounds s.hdu = true ∧ rawHeader s.hdu.img = some raw ∧
      t = { s with hdu := decoded raw s.hdu, answer := some done } := by
  cases hb : headerInBounds s.hdu with
  | false =>
    rw [decode_outOfBounds hb] at ht
    cases ht
    cases hok
  | true =>
    cases hr : rawHeader s.hdu.img with
    | none => simp [exec, execDecode, hb, hr] at ht
    | some raw =>
      rw [decode_latches hb hr] at ht
      cases ht
      exact ⟨raw, rfl, rfl, rfl⟩

end command

/-- Settles O21: the image after DECODE is the old one with NUL at the addresses of R103, and its window is the latched record. -/
theorem decodeWritesBackOnlyTheTitle : Obligations.DecodeWritesBackOnlyTheTitle := by
  unfold Obligations.DecodeWritesBackOnlyTheTitle
  intro s t era ht hok hera
  obtain ⟨raw, -, hr, rfl⟩ := decode_done ht hok
  obtain rfl : raw.legacyVendorCode = era := Option.some.inj ((rawHeader_legacyVendorCode hr).symm.trans hera)
  have htitle := title_decoded hr
  refine ⟨rfl, rfl, rfl, fun k hk => ?_, fun k hk => ?_, latched raw, rfl, Memory.bytes_length _ _ _ _ htitle,
    Memory.bytes_getElem _ _ _ _ htitle⟩
  · rw [read_decoded, if_pos hk]
  · rw [read_decoded, if_neg hk]

/-- Settles O22: the latched title is NUL where DECODE stores NUL, and a second DECODE latches the same record from the image
that the first one left. -/
theorem latchedTitleIsTerminated : Obligations.LatchedTitleIsTerminated := by
  unfold Obligations.LatchedTitleIsTerminated
  intro s t ht hok
  obtain ⟨raw, hb, hr, rfl⟩ := decode_done ht hok
  have hlast := latched_title_nul hr (.inl rfl)
  refine ⟨⟨latched raw, rfl, hlast, length_titleView_le hlast, fun hera => ?_⟩, ?_⟩
  · have hmodern : ∀ i, 11 ≤ i → i ≤ 15 → (latched raw).title[i]? = some 0x00 :=
      fun i h1 h2 => latched_title_nul hr (.inr ⟨hera, h1, h2⟩)
    exact ⟨hmodern, length_titleView_le (hmodern 11 le_rfl (by decide))⟩
  · rw [decode_latches (s := { s with hdu := decoded raw s.hdu, answer := some done }) hb (rawHeader_decoded hr),
      decoded_decoded]

/-- Settles O19: DECODE's row has no operand bit, and a window that is not wholly there is out of bounds. -/
theorem decodeNeedsTheWholeWindow : Obligations.DecodeNeedsTheWholeWindow := by
  unfold Obligations.DecodeNeedsTheWholeWindow
  refine ⟨accepted_of_row (r := rows[9]'(by decide)) (List.getElem_mem _) fun _ => rfl, fun s h => decode_outOfBounds ?_⟩
  rw [Bool.eq_false_iff, ne_eq, headerInBounds_iff]
  rintro ⟨hvalid, hlen⟩
  rcases h with h | h
  · exact absurd hvalid (by simp [h])
  · exact absurd hlen (Nat.not_le.mpr h)

end Sys2Proof.Proofs

/-! PROOF. IMGRD (40_header_decoder.md R105). -/

namespace Sys2Proof.Proofs

open Sys2Proof Sys2Proof.Machine Sys2Proof.Claims

section imgrd

variable {s : State} {addr : BitVec 24}

/-- The response of IMGRD to a byte of the image (R105). -/
def imageByteAnswer (b : Byte) : Response :=
  { status := .ok, data := (0 : Byte) ++ b, valid := 1, unit := 0, found := 0, name := [] }

theorem imgrd_outside (h : s.hdu.imgValid = false ∨ s.hdu.imgLen ≤ addr.toNat) :
    Answers (.imgrd addr) s (failed .outOfBounds) := by
  have hout : (s.hdu.imgValid && decide (addr.toNat < s.hdu.imgLen)) = false := by
    rcases h with h | h
    · simp [h]
    · simp [Nat.not_lt.mpr h]
  simp only [Answers, exec, execImgrd, hout]
  rfl

theorem imgrd_inside {b : Byte} (hvalid : s.hdu.imgValid = true) (hlen : addr.toNat < s.hdu.imgLen)
    (hb : Memory.read s.hdu.img addr.toNat = some b) : Answers (.imgrd addr) s (imageByteAnswer b) := by
  have hzero : b.zeroExtend 16 = (0 : Byte) ++ b := BitVec.setWidth_eq_append (by decide)
  simp only [Answers, exec, execImgrd, hvalid, hlen, hb, orFault_some, hzero, Bool.true_and, decide_true, if_true]
  rfl

/-- IMGRD answers OK only below IMG_LEN. -/
theorem imgrd_ok_lt {r : Response} (h : Answers (.imgrd addr) s r) (hok : r.status = .ok) : addr.toNat < s.hdu.imgLen := by
  by_contra hout
  have hfail : Answers (.imgrd addr) s (failed .outOfBounds) := imgrd_outside (.inr (Nat.not_lt.mp hout))
  have hr : r = failed .outOfBounds := by simpa [Answers] using h.symm.trans hfail
  rw [hr] at hok
  cases hok

end imgrd

/-- Settles O23: an address is below IMG_LEN or not, and DECODE leaves NUL at 0x143, which its window has in bounds. -/
theorem imgrdReadsOneByte : Obligations.ImgrdReadsOneByte := by
  unfold Obligations.ImgrdReadsOneByte
  refine ⟨accepted_of_row (r := rows[14]'(by decide)) (List.getElem_mem _) fun _ => rfl, fun s addr =>
    ⟨imgrd_outside, fun _ => imgrd_inside, fun r hmax h hok => (imgrd_ok_lt h hok).trans_le hmax, fun t ht hok => ?_⟩⟩
  obtain ⟨raw, hb, -, rfl⟩ := decode_done ht hok
  obtain ⟨hvalid, hlen⟩ := (headerInBounds_iff _).mp hb
  have hread : Memory.read (decoded raw s.hdu).img 0x143 = some 0x00 := by
    rw [read_decoded, if_pos (titleIndex_mem_titleStores _ (.inl rfl))]
  exact imgrd_inside (s := { s with hdu := decoded raw s.hdu, answer := some done }) (addr := 0x143) hvalid
    (Nat.lt_of_lt_of_le (by decide) hlen) hread

end Sys2Proof.Proofs

/-! PROOF. The four lookup commands (41_lookup_tables.md R120 to R136). -/

namespace Sys2Proof.Proofs

open Sys2Proof Sys2Proof.Machine Sys2Proof.Claims

/-! ## The words of the commands -/

/-- The word of a decoder row, where the row's commands are the decoder port's. -/
theorem accepted_decoderRow {r : Row} (hr : r ∈ decoderRows) (hports : ∀ x, (r.assemble x).ports = [.dp]) :
    Accepted r.pattern r.mask [.dp] fun w => r.assemble (Fields.ofWord w) :=
  accepted_of_row (List.mem_append_right registerRows hr) hports

/-! ## What a lookup answers -/

section answers

variable (s : State)

theorem vendor_answers (legacyCode eraFlag : Byte) (modernCode : Word) :
    Answers (.vendor legacyCode eraFlag modernCode) s (vendorResponse (resolve legacyCode eraFlag modernCode)) := rfl

theorem cartname_answers (code : Byte) : Answers (.cartname code) s (cartnameResponse code (cartname code)) := rfl

theorem romsize_answers (code : Byte) : Answers (.romsize code) s (romsizeResponse (romsize code)) := rfl

theorem ramsize_answers (code : Byte) : Answers (.ramsize code) s (ramsizeResponse (ramsize code)) := rfl

end answers

/-! ## The tables with a miss sentinel -/

/-- One table answers VENDOR: the one that the era flag chooses (R120 to R123). -/
theorem resolve_eq_hitOrMiss (legacyCode eraFlag : Byte) (modernCode : Word) :
    resolve legacyCode eraFlag modernCode =
      hitOrMiss (if eraFlag = 0x33 then modernVendors (modernCode.extractLsb' 8 8) (modernCode.extractLsb' 0 8)
        else legacyVendors legacyCode) unknownVendor :=
  (apply_ite (hitOrMiss · unknownVendor) _ _ _).symm

theorem vendorResponse_hitOrMiss (entry : Option Text) (miss : Text) :
    vendorResponse (hitOrMiss entry miss) = found entry 0x0000 miss := by
  cases entry <;> rfl

theorem cartnameResponse_hitOrMiss (code : Byte) (entry : Option Text) (miss : Text) :
    cartnameResponse code (hitOrMiss entry miss) = found entry ((0 : Byte) ++ code) miss := by
  have hzero : code.zeroExtend 16 = (0 : Byte) ++ code := BitVec.setWidth_eq_append (by decide)
  cases entry <;> (rw [cartnameResponse, hzero]; rfl)

/-- Settles O25: VENDOR looks its code up in the one table that the era flag chooses. -/
theorem vendorResolvesTheName : Obligations.VendorResolvesTheName := by
  unfold Obligations.VendorResolvesTheName
  refine ⟨accepted_decoderRow (r := decoderRows[1]) (List.getElem_mem _) fun _ => rfl, fun s a e m => ?_⟩
  have h := vendor_answers s a e m
  rw [resolve_eq_hitOrMiss, vendorResponse_hitOrMiss] at h
  exact h

/-- Settles O27: CARTNAME looks its code up in the cartridge-type table. -/
theorem cartnameLooksUpTheCode : Obligations.CartnameLooksUpTheCode := by
  unfold Obligations.CartnameLooksUpTheCode
  refine ⟨accepted_decoderRow (r := decoderRows[2]) (List.getElem_mem _) fun _ => rfl, fun s code => ?_⟩
  exact cartnameResponse_hitOrMiss code (cartTypes code) [] ▸ cartname_answers s code

/-! ## The size classes -/

/-- A code above 0x08 is no ROM size (R130). -/
theorem romsize_absent {code : Byte} (h : 0x08 < code.toNat) : romsize code = { valid := false, num := 0, unit := .kib } :=
  if_neg (Nat.not_le.mpr h)

/-- A code above 0x05 is no RAM size (R133). -/
theorem ramsize_absent {code : Byte} (h : 0x05 < code.toNat) : ramsize code = { valid := false, kib := 0 } := by
  obtain ⟨n, hn⟩ := Nat.exists_eq_add_of_le' h
  unfold ramsize
  rw [hn]
  rfl

/-- Settles O28: the nine sizes are computed from their codes, and a code above them is no size. -/
theorem romsizeReportsTheClass : Obligations.RomsizeReportsTheClass := by
  unfold Obligations.RomsizeReportsTheClass
  refine ⟨accepted_decoderRow (r := decoderRows[3]) (List.getElem_mem _) fun _ => rfl, fun s => ?_⟩
  have sized := romsize_answers s
  refine ⟨sized 0x00, sized 0x01, sized 0x02, sized 0x03, sized 0x04, sized 0x05, sized 0x06, sized 0x07, sized 0x08,
    fun code hcode => ?_⟩
  have habsent := sized code
  rw [romsize_absent hcode] at habsent
  exact habsent

/-- Settles O29: the six sizes are entries of the table, and a code above them is no size. -/
theorem ramsizeReportsTheClass : Obligations.RamsizeReportsTheClass := by
  unfold Obligations.RamsizeReportsTheClass
  refine ⟨accepted_decoderRow (r := decoderRows[4]) (List.getElem_mem _) fun _ => rfl, fun s => ?_⟩
  have sized := ramsize_answers s
  refine ⟨sized 0x00, sized 0x01, sized 0x02, sized 0x03, sized 0x04, sized 0x05, fun code hcode => ?_⟩
  have habsent := sized code
  rw [ramsize_absent hcode] at habsent
  exact habsent

/-- Settles O30: the response of each of the four commands has the status OK, whatever its table answers. -/
theorem unknownCodesAreNoErrors : Obligations.UnknownCodesAreNoErrors := by
  unfold Obligations.UnknownCodesAreNoErrors
  exact fun s => ⟨fun a e m => ⟨_, vendor_answers s a e m, rfl⟩, fun c => ⟨_, cartname_answers s c, rfl⟩,
    fun c => ⟨_, romsize_answers s c, rfl⟩, fun c => ⟨_, ramsize_answers s c, rfl⟩⟩

end Sys2Proof.Proofs

/-! PROOF. The title view and the presentation of a record (41_lookup_tables.md R140 to R142). -/

namespace Sys2Proof.Proofs

open Sys2Proof Sys2Proof.Machine

/-- The title's text is what stands before the first NUL (R140). -/
theorem titleView_eq_take {h : HeaderRecord} {j : Nat} (hnul : h.title[j]? = some 0x00)
    (hfirst : ∀ i, i < j → h.title[i]? ≠ some 0x00) : titleView h = h.title.take j := by
  obtain ⟨hj, hbyte⟩ := List.getElem?_eq_some_iff.mp hnul
  have hindex : h.title.findIdx (fun b => !(b != 0x00)) = j := by
    refine (List.findIdx_eq hj).mpr ⟨by simp [hbyte], fun i hi => ?_⟩
    simpa [hi.trans hj] using hfirst i hi
  rw [titleView, List.takeWhile_eq_take_findIdx_not, hindex]

/-- A list that holds a byte at index i holds it for the first time at some index up to i. -/
theorem exists_first_index {l : List Byte} {b : Byte} {i : Nat} (h : l[i]? = some b) :
    ∃ j, j ≤ i ∧ l[j]? = some b ∧ ∀ k, k < j → l[k]? ≠ some b :=
  have hex : ∃ j, l[j]? = some b := ⟨i, h⟩
  ⟨Nat.find hex, Nat.find_min' hex h, Nat.find_spec hex, fun _ => Nat.find_min hex⟩

/-- Under the invariant, byte 15 of a record's title is NUL, since the record is its own normalised form (R102, R103). -/
theorem title_last_nul {u : HeaderUnit} (hu : u.Inv) {h : HeaderRecord} (hh : u.hdr = some h) : h.title[15]? = some 0x00 := by
  obtain ⟨-, hraw, hfixed⟩ := hu.record h hh
  rw [← hfixed]
  exact latched_title_nul hraw (.inl rfl)

/-- Settles O33: the text is cut at the first NUL, and the NUL at byte 15 of a latched title bounds where the first one is. -/
theorem titleViewEndsAtTheFirstNul : Obligations.TitleViewEndsAtTheFirstNul := by
  unfold Obligations.TitleViewEndsAtTheFirstNul
  refine ⟨fun _ _ => titleView_eq_take, fun s hs h hh => ?_⟩
  obtain ⟨j, hj, hnul, hfirst⟩ := exists_first_index (title_last_nul hs.unit hh)
  exact ⟨j, Nat.lt_succ_of_le hj, hnul, hfirst⟩

/-- Settles O34: the tuple lists the views in the order of R141, and the raw code is chosen by the legacy code. -/
theorem presentationKeepsItsOrder : Obligations.PresentationKeepsItsOrder := by
  unfold Obligations.PresentationKeepsItsOrder
  exact fun h => ⟨rfl, rfl, fun hmodern => if_pos hmodern, fun hlegacy => if_neg hlegacy⟩

end Sys2Proof.Proofs

/-! PROOF. The commands of the register file, one by one (10_state.md R22, R23, R36; 42_register_file.md R150 to R158). -/

namespace Sys2Proof.Proofs

open Sys2Proof Sys2Proof.Machine Sys2Proof.Claims

/-! ## The words of the commands -/

/-- The word of a register-file row, where the row's commands are of one class. -/
theorem accepted_registerRow {r : Row} (hr : r ∈ registerRows) {ports : List Port}
    (hports : ∀ x, (r.assemble x).ports = ports) :
    Accepted r.pattern r.mask ports fun w => r.assemble (Fields.ofWord w) :=
  accepted_of_row (List.mem_append_left decoderRows hr) hports

/-- The low bits of OPD, from the word (R73, R76). -/
theorem opd_low (w : Command) {n : Nat} (hn : n ≤ 16) : (Fields.ofWord w).opd.extractLsb' 0 n = w.extractLsb' 0 n :=
  BitVec.extractLsb'_extractLsb'_of_le (by omega)

/-- The word of SETFLAG, whose operand is `OPD[0]` (R76). -/
theorem accepted_setflag :
    Accepted 0x5000000000 0xF0FFFFFFFE [.wp] fun w => .setflag (sel w) (w.extractLsb' 0 1) := by
  simp only [← opd_low _ (show 1 ≤ 16 by decide)]
  exact accepted_registerRow (r := registerRows[4]) (List.getElem_mem _) fun _ => rfl

/-- The word of SETR8, whose operand is `OPD[7:0]` (R76). -/
theorem accepted_setr8 : Accepted 0x7000000000 0xF0FFFFFF00 [.wp] fun w => .setr8 (sel w) (w.extractLsb' 0 8) := by
  simp only [← opd_low _ (show 8 ≤ 16 by decide)]
  exact accepted_registerRow (r := registerRows[6]) (List.getElem_mem _) fun _ => rfl

/-! ## Cells that hold a value -/

/-- An 8-bit cell that holds a value reads as its bits. -/
theorem read8_of_holds8 {x : RegFile} {r : Reg8} (h : holds8 x r = true) : read8 x r = some (bits8 x r) := if_pos h

/-- A pointer that holds a value reads as its bits. -/
theorem read16_of_holds16 {x : RegFile} {r : Reg16} (h : holds16 x r = true) : read16 x r = some (bits16 x r) := if_pos h

/-- A pair whose two cells hold values reads as the high cell before the low cell (R22). -/
theorem readPair_of_holds8 {x : RegFile} {p : Pair} (hhigh : holds8 x (pairHigh p) = true)
    (hlow : holds8 x (pairLow p) = true) : readPair x p = some (bits8 x (pairHigh p) ++ bits8 x (pairLow p)) := by
  rw [readPair, read8_of_holds8 hhigh, read8_of_holds8 hlow]

/-! ## The bit of a flag -/

/-- A flag is its bit of `f` (R23). -/
theorem flagOf_eq_ofBool (f : Byte) (k : Flag) : flagOf f k = BitVec.ofBool (f.getLsbD (flagBit k)) := by
  ext i hi
  obtain rfl : i = 0 := by omega
  simp [flagOf]

/-- A flag whose bit of `f` holds a value reads as that bit. -/
theorem readFlag_of_bit_set {x : RegFile} {k : Flag} (h : x.held.f.getLsbD (flagBit k) = true) :
    readFlag x k = some (BitVec.ofBool (x.f.getLsbD (flagBit k))) := by
  have hheld : flagOf x.held.f k = 1 := by rw [flagOf_eq_ofBool, h]; rfl
  rw [readFlag, if_pos hheld, flagOf_eq_ofBool]

/-- The mask of a flag has the flag's bit alone. -/
theorem getLsbD_flagMask (k : Flag) {j : Nat} (hj : j < 8) : (flagMask k).getLsbD j = decide (j = flagBit k) := by
  revert j
  cases k <;> decide

/-- A write of a flag sets the flag's bit and keeps every other (R154). -/
theorem getLsbD_withFlag (f : Byte) (k : Flag) (b : BitVec 1) {j : Nat} (hj : j < 8) :
    (withFlag f k b).getLsbD j = if j = flagBit k then b == 1 else f.getLsbD j := by
  have hset : (if b = 1 then flagMask k else 0x00).getLsbD j = (b == 1 && decide (j = flagBit k)) := by
    by_cases hb : b = 1#1 <;> simp [hb, getLsbD_flagMask k hj]
  rw [withFlag, BitVec.getLsbD_or, BitVec.getLsbD_and, BitVec.getLsbD_not, getLsbD_flagMask k hj, hset]
  by_cases hk : j = flagBit k <;> simp [hk, hj]

/-! ## RESET -/

/-- Every step answers its read ports from the state at its start (R223, R224). -/
theorem cycle_readsTheStart {i : StepInput} {rest : List StepInput} {s t : State} (h : cycle i rest s = .next t) :
    ReadsTheStart i s t := by
  obtain ⟨-, rp0, rp1, -, -, -, h0, h1, -, -, -, rfl⟩ := (cycle_eq_next i rest s t).mp h
  exact ⟨rp0, rp1, h0, h1, rfl, rfl⟩

theorem reset_leaves (s : State) : Leaves .reset s .afterReset := rfl

@[simp] theorem readFlag_afterReset (k : Flag) : readFlag .afterReset k = some 0 := by
  rw [readFlag_initialised _ k rfl]
  cases k <;> rfl

/-- After RESET a pair answers as the register file of R36 reads. -/
theorem getpair_after_reset {s t : State} (ht : exec .reset s = .next t) {p : BitVec 4} {P : Pair} {v : Word}
    (hp : pairOf p = some P) (hv : readPair .afterReset P = some v) : Answers (.getpair p) t (answered v) :=
  getpair_answers hp (rfu_of_leaves (reset_leaves s) ht ▸ hv)

/-- After RESET a flag answers 0 (R36). -/
theorem getflag_after_reset {s t : State} (ht : exec .reset s = .next t) {k : BitVec 4} (hk : k.toNat < 4) :
    Answers (.getflag k) t (answered 0) := by
  obtain ⟨K, hK⟩ := flagNamed_of_lt hk
  exact getflag_answers hK (rfu_of_leaves (reset_leaves s) ht ▸ readFlag_afterReset K)

/-- Settles O6: RESET leaves the register file of R36, which pairs and flags then read; the reads of its own step, as of every
step, answer from the state at the start. -/
theorem resetSetsEveryCell : Obligations.ResetSetsEveryCell := by
  unfold Obligations.ResetSetsEveryCell
  refine ⟨accepted_registerRow (r := registerRows[0]) (List.getElem_mem _) fun _ => rfl,
    fun s => ⟨reset_leaves s, fun t ht => ?_, fun i rest t _ => cycle_readsTheStart⟩⟩
  exact ⟨getpair_after_reset (P := .af) ht rfl rfl, getpair_after_reset (P := .bc) ht rfl rfl,
    getpair_after_reset (P := .de) ht rfl rfl, getpair_after_reset (P := .hl) ht rfl rfl,
    getflag_after_reset ht (by decide), getflag_after_reset ht (by decide), getflag_after_reset ht (by decide),
    getflag_after_reset ht (by decide)⟩

/-! ## The reads -/

/-- The two read ports take the same commands (R74). -/
theorem perform_rp0_eq_rp1 (w : Option Command) (s : State) : perform .rp0 w s = perform .rp1 w s := by
  have hports : ∀ i : Instr, i.wellFormedAt .rp0 = i.wellFormedAt .rp1 := by
    intro i
    rcases ports_cases i with h | h | h <;> simp [Instr.wellFormedAt, h]
  simp only [perform, admission, hports]

/-- Settles O7: a pair reads as its two cells where both hold a value. -/
theorem getpairAnswersThePair : Obligations.GetpairAnswersThePair := by
  unfold Obligations.GetpairAnswersThePair
  refine ⟨accepted_registerRow (r := registerRows[1]) (List.getElem_mem _) fun _ => rfl, fun s =>
    ⟨fun ha hf => ?_, fun hb hc => ?_, fun hd he => ?_, fun hh hl => ?_, fun p hp => getpair_unnamed (pairOf_of_ge hp),
      fun w => perform_rp0_eq_rp1 w s⟩⟩
  · exact getpair_answers (P := .af) rfl (readPair_of_holds8 ha (decide_eq_true hf))
  · exact getpair_answers (P := .bc) rfl (readPair_of_holds8 hb hc)
  · exact getpair_answers (P := .de) rfl (readPair_of_holds8 hd he)
  · exact getpair_answers (P := .hl) rfl (readPair_of_holds8 hh hl)

/-- Settles O9: a flag reads as its bit of `f` where that bit holds a value. -/
theorem getflagAnswersTheFlag : Obligations.GetflagAnswersTheFlag := by
  unfold Obligations.GetflagAnswersTheFlag
  refine ⟨accepted_registerRow (r := registerRows[3]) (List.getElem_mem _) fun _ => rfl,
    fun s k => ⟨fun hk hheld => ?_, fun hk => getflag_unnamed (flagNamed_of_ge hk)⟩⟩
  obtain ⟨K, hK⟩ := flagNamed_of_lt hk
  rw [← flagBit_of_named hK] at hheld ⊢
  have h := getflag_answers hK (readFlag_of_bit_set hheld)
  cases hf : s.rfu.f.getLsbD (flagBit K) <;> rw [hf] at h <;> exact h

/-- Settles O11: an 8-bit cell reads as its bits where it holds a value. -/
theorem getr8AnswersTheCell : Obligations.Getr8AnswersTheCell := by
  unfold Obligations.Getr8AnswersTheCell
  refine ⟨accepted_registerRow (r := registerRows[5]) (List.getElem_mem _) fun _ => rfl, fun s => ?_⟩
  have cell {r : BitVec 4} {R : Reg8} (hr : reg8Of r = some R) (h : holds8 s.rfu R = true) :
      Answers (.getr8 r) s (answered ((0 : Byte) ++ bits8 s.rfu R)) := getr8_answers hr (read8_of_holds8 h)
  exact ⟨cell (R := .a) rfl, cell (R := .b) rfl, cell (R := .c) rfl, cell (R := .d) rfl, cell (R := .e) rfl,
    fun hf => cell (R := .f) rfl (decide_eq_true hf), cell (R := .h) rfl, cell (R := .l) rfl,
    fun r hr => getr8_unnamed (reg8Of_of_ge hr)⟩

/-- Settles O13: a pointer reads as its bits where it holds a value. -/
theorem getr16AnswersThePointer : Obligations.Getr16AnswersThePointer := by
  unfold Obligations.Getr16AnswersThePointer
  refine ⟨accepted_registerRow (r := registerRows[7]) (List.getElem_mem _) fun _ => rfl,
    fun s => ⟨fun hpc => ?_, fun hsp => ?_, fun x hx => getr16_unnamed (reg16Of_of_ge hx)⟩⟩
  · exact getr16_answers (X := .pc) rfl (read16_of_holds16 hpc)
  · exact getr16_answers (X := .sp) rfl (read16_of_holds16 hsp)

/-! ## The writes -/

/-- Settles O8: SETPAIR writes the pair, which then reads as written. -/
theorem setpairWritesTwoCells : Obligations.SetpairWritesTwoCells := by
  unfold Obligations.SetpairWritesTwoCells
  refine ⟨accepted_registerRow (r := registerRows[2]) (List.getElem_mem _) fun _ => rfl, fun s v =>
    ⟨setpair_leaves (P := .af) rfl v, setpair_leaves (P := .bc) rfl v, setpair_leaves (P := .de) rfl v,
      setpair_leaves (P := .hl) rfl v, fun p hp => setpair_unnamed (pairOf_of_ge hp) v, fun p t hp ht => ?_⟩⟩
  obtain ⟨P, hP⟩ := pairOf_of_lt hp
  have hrfu : t.rfu = writePair s.rfu P v := rfu_of_leaves (setpair_leaves hP v) ht
  exact getpair_answers hP (hrfu ▸ readPair_writePair_same s.rfu P v)

/-- Settles O10: SETFLAG writes the flag's bit of `f`, and with it that the bit holds a value. -/
theorem setflagWritesOneBit : Obligations.SetflagWritesOneBit := by
  unfold Obligations.SetflagWritesOneBit
  refine ⟨accepted_setflag, fun s k b => ⟨fun hk => ?_, fun hk => setflag_unnamed (flagNamed_of_ge hk) b⟩⟩
  obtain ⟨K, hK⟩ := flagNamed_of_lt hk
  refine ⟨withFlag s.rfu.f K b, withFlag s.rfu.held.f K 1, setflag_leaves hK b, fun j hj => ?_⟩
  rw [← flagBit_of_named hK]
  exact ⟨getLsbD_withFlag _ K b hj, getLsbD_withFlag _ K 1 hj⟩

/-- Settles O12: SETR8 writes the cell that its selector names. -/
theorem setr8WritesTheCell : Obligations.Setr8WritesTheCell := by
  unfold Obligations.Setr8WritesTheCell
  exact ⟨accepted_setr8, fun s v =>
    ⟨setr8_leaves (R := .a) rfl v, setr8_leaves (R := .b) rfl v, setr8_leaves (R := .c) rfl v,
      setr8_leaves (R := .d) rfl v, setr8_leaves (R := .e) rfl v, setr8_leaves (R := .f) rfl v,
      setr8_leaves (R := .h) rfl v, setr8_leaves (R := .l) rfl v, fun r hr => setr8_unnamed (reg8Of_of_ge hr) v⟩⟩

/-- Settles O14: SETR16 writes the pointer that its selector names. -/
theorem setr16WritesThePointer : Obligations.Setr16WritesThePointer := by
  unfold Obligations.Setr16WritesThePointer
  exact ⟨accepted_registerRow (r := registerRows[8]) (List.getElem_mem _) fun _ => rfl, fun s v =>
    ⟨setr16_leaves (X := .pc) rfl v, setr16_leaves (X := .sp) rfl v, fun x hx => setr16_unnamed (reg16Of_of_ge hx) v⟩⟩

end Sys2Proof.Proofs

/-! PROOF. A write in one step and a read in the next (42_register_file.md R163; 70_reset_and_hazards.md R223). -/

namespace Sys2Proof.Proofs

open Sys2Proof Sys2Proof.Machine Sys2Proof.Claims

/-! ## Steps that present the words of commands -/

/-- The word of a command, at a port of its class, performs the command. -/
theorem perform_encode {p : Port} {i : Instr} (hp : p ∈ i.ports) (s : State) : perform p (some (encode i)) s = exec i s :=
  perform_admitted ((admission_ok p _ i).mpr ⟨decode_encode i, hp⟩) s

section steps

variable {s : State} {rest : List StepInput}

/-- A step that presents a write command alone leaves the register file that the command leaves. -/
theorem step_write_alone {i : Instr} (hi : i.ports = [.wp]) {x : RegFile} (hx : Leaves i s x)
    (hd : s.driver = { wp := some (encode i) } :: rest) : ∃ t, step s = .next t ∧ t.rfu = x ∧ t.driver = rest := by
  have hwp : perform .wp (some (encode i)) s = .next { s with rfu := x, answer := some done } :=
    (perform_encode (by simp [hi]) s).trans hx
  rw [step_eq, hd]
  exact ⟨_, (cycle_eq_next _ rest s _).mpr ⟨rfl, _, _, _, _, _, rfl, rfl, hwp, rfl, rfl, rfl⟩, rfl, rfl⟩

/-- A step that presents one read command at both read ports answers it at both, and keeps the register file. -/
theorem step_read_both {i : Instr} (hi : i.ports = [.rp0, .rp1]) {r : Response} (hr : Answers i s r)
    (hd : s.driver = { rp0 := some (encode i), rp1 := some (encode i) } :: rest) :
    ∃ t, step s = .next t ∧ t.out.rp0 = some (readPart r) ∧ t.out.rp1 = some (readPart r) ∧ t.rfu = s.rfu := by
  have hrp0 : perform .rp0 (some (encode i)) s = .next { s with answer := some r } :=
    (perform_encode (by simp [hi]) s).trans hr
  have hrp1 := (perform_rp0_eq_rp1 (some (encode i)) s).symm.trans hrp0
  rw [step_eq, hd]
  exact ⟨_, (cycle_eq_next _ rest s _).mpr ⟨rfl, _, _, _, _, _, hrp0, hrp1, rfl, rfl, rfl, rfl⟩, rfl, rfl, rfl⟩

/-- A write command in one step and a read command in the next: the read answers from the register file that the write left. -/
theorem run_write_then_read {i j : Instr} (hi : i.ports = [.wp]) (hj : j.ports = [.rp0, .rp1]) {x : RegFile} {r : Response}
    (hx : Leaves i s x) (hr : ∀ t : State, t.rfu = x → Answers j t r)
    (hd : s.driver = { wp := some (encode i) } :: { rp0 := some (encode j), rp1 := some (encode j) } :: rest) :
    ∃ t, Host.Core.run Sys2Proof.core 2 s = .next t ∧ t.out.rp0 = some (readPart r) ∧ t.out.rp1 = some (readPart r) ∧
      t.rfu = x := by
  obtain ⟨t, ht, htx, htd⟩ := step_write_alone hi hx hd
  obtain ⟨u, hu, h0, h1, hux⟩ := step_read_both hj (hr t htx) htd
  refine ⟨u, ?_, h0, h1, hux.trans htx⟩
  simp [Host.Core.run, core, ht, hu]

end steps

/-! ## The bits of a register file whose cells all hold values -/

/-- Where every cell holds a value, cells that read alike have the same bits. -/
theorem bits8_eq_of_read8_eq {x y : RegFile} (hx : x.held = Held.all) (hy : y.held = Held.all) {q : Reg8}
    (h : read8 y q = read8 x q) : bits8 y q = bits8 x q := by
  rw [read8_initialised x q hx, read8_initialised y q hy] at h
  exact Option.some.inj h

/-- A pair view is its high cell, shifted into place, or its low cell (R22). -/
theorem append_eq_shiftLeft_or (x y : Byte) : (x ++ y : Word) = x.zeroExtend 16 <<< 8 ||| y.zeroExtend 16 := by
  ext i hi
  simp only [← BitVec.getLsbD_eq_getElem, BitVec.getLsbD_append]
  interval_cases i <;> simp

/-- Settles O15: the register file that the first step's write leaves is read in the second, and differs from the one before in
the cells written alone. -/
theorem pairsAndFlagsReadBackAsWritten : Obligations.PairsAndFlagsReadBackAsWritten := by
  unfold Obligations.PairsAndFlagsReadBackAsWritten
  intro s hinit
  have hall : s.rfu.held = Held.all := (initialised_iff _).mp hinit
  refine ⟨fun p v rest hp hd => ?_, fun k b rest hk hd => ?_, fun p P hp => ?_⟩
  · obtain ⟨P, hP⟩ := pairOf_of_lt hp
    obtain ⟨t, ht, h0, h1, hrfu⟩ := run_write_then_read rfl rfl (setpair_leaves hP v)
      (fun t ht => getpair_answers hP (ht ▸ readPair_writePair_same s.rfu P v)) hd
    refine ⟨t, ht, h0, h1, ?_⟩
    rw [hrfu]
    refine ⟨fun q => (writePair_keepsPointers s.rfu P v q).2, fun q hq => ?_⟩
    obtain ⟨hhigh, hlow⟩ := hq P hP
    exact bits8_eq_of_read8_eq hall ((RfuWrites.pair P v).held hall) (read8_writePair_other _ P q v hhigh hlow)
  · obtain ⟨K, hK⟩ := flagNamed_of_lt hk
    obtain ⟨t, ht, h0, h1, hrfu⟩ := run_write_then_read rfl rfl (setflag_leaves hK b)
      (fun t ht => getflag_answers hK (ht ▸ readFlag_writeFlag_same s.rfu K b)) hd
    refine ⟨t, ht, h0, h1, ?_⟩
    rw [hrfu]
    refine ⟨fun q => (writeFlag_keepsPointers s.rfu K b q).2, fun j hj hne => ?_, fun q hq => ?_⟩
    · exact (getLsbD_withFlag s.rfu.f K b hj).trans (if_neg (flagBit_of_named hK ▸ hne))
    · exact bits8_eq_of_read8_eq hall ((RfuWrites.flag K b).held hall) (read8_writeFlag_other _ K b q hq)
  · have hpair : readPair s.rfu P = some (bits8 s.rfu (pairHigh P) ++ bits8 s.rfu (pairLow P)) := by
      rw [readPair, read8_initialised _ _ hall, read8_initialised _ _ hall]
    exact append_eq_shiftLeft_or _ _ ▸ getpair_answers hp hpair

end Sys2Proof.Proofs

/-! PROOF. What a command and a port come to: a status, or the fault of a read of no value (00_scope.md R14; 30_encoding.md R79,
R82; 60_exceptions.md R200 to R206). -/

namespace Sys2Proof.Proofs

open Sys2Proof Sys2Proof.Machine Sys2Proof.Claims

/-! ## Values that cannot be missing -/

/-- In an initialised file every pair reads as its two cells (R22). -/
theorem readPair_initialised (x : RegFile) (p : Pair) (h : x.held = Held.all) :
    readPair x p = some (bits8 x (pairHigh p) ++ bits8 x (pairLow p)) := by
  rw [readPair, read8_initialised _ _ h, read8_initialised _ _ h]

/-- Under the invariant every address below IMG_LEN holds a byte (R28). -/
theorem read_below_imgLen {u : HeaderUnit} (hu : u.Inv) {k : Nat} (hk : k < u.imgLen) : ∃ b, Memory.read u.img k = some b := by
  rw [← Option.isSome_iff_exists, Memory.read_isSome, hu.addresses]
  exact List.mem_range.mpr hk

/-- Under the invariant a header window in bounds has all its bytes (R100). -/
theorem rawHeader_inBounds {u : HeaderUnit} (hu : u.Inv) (hb : headerInBounds u = true) : ∃ raw, rawHeader u.img = some raw := by
  obtain ⟨-, hlen⟩ := (headerInBounds_iff u).mp hb
  refine ⟨_, rawHeader_eq u.img (fun k => (Memory.read u.img k).getD 0) fun k _ hk => ?_⟩
  obtain ⟨b, hread⟩ := read_below_imgLen hu (hk.trans_le hlen)
  rw [hread, Option.getD_some]

/-! ## All that a command can come to -/

/-- All that a command can come to: the answer OK, one of the two errors of a command, which answer and change nothing else
(R200), or the fault of a read of no value, which has its own condition in each unit. -/
inductive CommandOutcome (i : Instr) (s : State) : Result → Prop
  | ok {t : State} {r : Response} (hanswer : t.answer = some r) (hok : r.status = .ok) : CommandOutcome i s (.next t)
  | invalidSelector (hreset : i ≠ .reset) (hports : i.ports ≠ [.dp]) :
      CommandOutcome i s (.next { s with answer := some (failed .invalidSelector) })
  | outOfBounds (hi : i = .decode ∨ ∃ addr, i = .imgrd addr) :
      CommandOutcome i s (.next { s with answer := some (failed .outOfBounds) })
  | cellFault {e : Fault} (hports : i.ports = [.rp0, .rp1]) (hheld : s.rfu.held ≠ Held.all) : CommandOutcome i s (.fault e)
  | imageFault {e : Fault} (hports : i.ports = [.dp]) (hinv : ¬ s.hdu.Inv) : CommandOutcome i s (.fault e)

section commands

variable {i : Instr} {s : State}

theorem CommandOutcome.of_answers {r : Response} (h : Answers i s r) (hok : r.status = .ok) : CommandOutcome i s (exec i s) := by
  rw [h]
  exact .ok rfl hok

theorem CommandOutcome.of_leaves {x : RegFile} (h : Leaves i s x) : CommandOutcome i s (exec i s) := by
  rw [h]
  exact .ok rfl rfl

theorem CommandOutcome.of_unnamed (h : Answers i s (failed .invalidSelector)) (hreset : i ≠ .reset) (hports : i.ports ≠ [.dp]) :
    CommandOutcome i s (exec i s) := by
  rw [h]
  exact .invalidSelector hreset hports

theorem CommandOutcome.of_cell_none {α : Type} {v : Option α} {y : α} {e : Fault} (hfault : exec i s = .fault e)
    (hports : i.ports = [.rp0, .rp1]) (hnone : v = none) (hall : s.rfu.held = Held.all → v = some y) :
    CommandOutcome i s (exec i s) := by
  rw [hfault]
  exact .cellFault hports fun h => by simp [hall h] at hnone

/-- DECODE: out of bounds, or a window whose bytes the invariant has. -/
theorem decode_outcome (s : State) : CommandOutcome .decode s (exec .decode s) := by
  cases hb : headerInBounds s.hdu with
  | false => exact decode_outOfBounds hb ▸ .outOfBounds (.inl rfl)
  | true =>
    cases hr : rawHeader s.hdu.img with
    | none =>
      have hfault : exec .decode s = .fault .headerByteHoldsNoValue := by simp [exec, execDecode, hb, hr]
      rw [hfault]
      refine .imageFault rfl fun hinv => ?_
      obtain ⟨raw, hraw⟩ := rawHeader_inBounds hinv hb
      simp [hr] at hraw
    | some raw =>
      rw [decode_latches hb hr]
      exact .ok rfl rfl

/-- IMGRD: out of bounds, or a byte that the invariant has. -/
theorem imgrd_outcome (addr : BitVec 24) (s : State) : CommandOutcome (.imgrd addr) s (exec (.imgrd addr) s) := by
  by_cases hin : s.hdu.imgValid = true ∧ addr.toNat < s.hdu.imgLen
  · obtain ⟨hvalid, hlen⟩ := hin
    cases hread : Memory.read s.hdu.img addr.toNat with
    | none =>
      have hfault : exec (.imgrd addr) s = .fault (.imageByteHoldsNoValue addr.toNat) := by
        simp [exec, execImgrd, hvalid, hlen, hread]
      rw [hfault]
      refine .imageFault rfl fun hinv => ?_
      obtain ⟨b, hb⟩ := read_below_imgLen hinv hlen
      simp [hread] at hb
    | some b => exact .of_answers (imgrd_inside hvalid hlen hread) rfl
  · have hout : s.hdu.imgValid = false ∨ s.hdu.imgLen ≤ addr.toNat := by
      rwa [not_and_or, Bool.not_eq_true, Nat.not_lt] at hin
    rw [imgrd_outside hout]
    exact .outOfBounds (.inr ⟨addr, rfl⟩)

/-- All that a command can come to, by its selector and by what the cell or the image it reads holds. -/
theorem exec_outcome (i : Instr) (s : State) : CommandOutcome i s (exec i s) := by
  cases i with
  | reset => exact .of_leaves (reset_leaves s)
  | getpair p =>
    cases hp : pairOf p with
    | none => exact .of_unnamed (getpair_unnamed hp) nofun nofun
    | some P =>
      cases hv : readPair s.rfu P with
      | none => exact .of_cell_none (getpair_faults hp hv) rfl hv (readPair_initialised _ P)
      | some v => exact .of_answers (getpair_answers hp hv) rfl
  | setpair p v =>
    cases hp : pairOf p with
    | none => exact .of_unnamed (setpair_unnamed hp v) nofun nofun
    | some P => exact .of_leaves (setpair_leaves hp v)
  | getflag k =>
    cases hk : flagNamed k with
    | none => exact .of_unnamed (getflag_unnamed hk) nofun nofun
    | some K =>
      cases hb : readFlag s.rfu K with
      | none => exact .of_cell_none (getflag_faults hk hb) rfl hb (readFlag_initialised _ K)
      | some b => exact .of_answers (getflag_answers hk hb) rfl
  | setflag k b =>
    cases hk : flagNamed k with
    | none => exact .of_unnamed (setflag_unnamed hk b) nofun nofun
    | some K => exact .of_leaves (setflag_leaves hk b)
  | getr8 r =>
    cases hr : reg8Of r with
    | none => exact .of_unnamed (getr8_unnamed hr) nofun nofun
    | some R =>
      cases hv : read8 s.rfu R with
      | none => exact .of_cell_none (getr8_faults hr hv) rfl hv (read8_initialised _ R)
      | some v => exact .of_answers (getr8_answers hr hv) rfl
  | setr8 r v =>
    cases hr : reg8Of r with
    | none => exact .of_unnamed (setr8_unnamed hr v) nofun nofun
    | some R => exact .of_leaves (setr8_leaves hr v)
  | getr16 x =>
    cases hx : reg16Of x with
    | none => exact .of_unnamed (getr16_unnamed hx) nofun nofun
    | some X =>
      cases hv : read16 s.rfu X with
      | none => exact .of_cell_none (getr16_faults hx hv) rfl hv (read16_initialised _ X)
      | some v => exact .of_answers (getr16_answers hx hv) rfl
  | setr16 x v =>
    cases hx : reg16Of x with
    | none => exact .of_unnamed (setr16_unnamed hx v) nofun nofun
    | some X => exact .of_leaves (setr16_leaves hx v)
  | decode => exact decode_outcome s
  | vendor legacyCode eraFlag modernCode => exact .of_answers (vendor_answers s legacyCode eraFlag modernCode) rfl
  | cartname code => exact .of_answers (cartname_answers s code) rfl
  | romsize code => exact .of_answers (romsize_answers s code) rfl
  | ramsize code => exact .of_answers (ramsize_answers s code) rfl
  | imgrd addr => exact imgrd_outcome addr s

/-- All that a command that goes on can have come to. -/
theorem exec_next_outcome {t : State} (ht : exec i s = .next t) : CommandOutcome i s (.next t) := ht ▸ exec_outcome i s

/-- A command that goes on answers. -/
theorem exec_answer {t : State} (ht : exec i s = .next t) : ∃ r, t.answer = some r := by
  cases exec_next_outcome ht with
  | ok hanswer _ => exact ⟨_, hanswer⟩
  | invalidSelector _ _ | outOfBounds _ => exact ⟨_, rfl⟩

/-- The statuses of a command, and which commands answer each error (R202 to R205). -/
theorem exec_status {t : State} {r : Response} (ht : exec i s = .next t) (hr : t.answer = some r) :
    r.status ≠ .ioError ∧ r.status ≠ .illegalCommand ∧ (r.status = .invalidSelector → i ≠ .reset ∧ i.ports ≠ [.dp]) ∧
      (r.status = .outOfBounds → i = .decode ∨ ∃ addr, i = .imgrd addr) := by
  cases exec_next_outcome ht with
  | ok hanswer hok =>
    cases hanswer.symm.trans hr
    simp [hok]
  | invalidSelector hreset hports =>
    cases hr
    exact ⟨nofun, nofun, fun _ => ⟨hreset, hports⟩, nofun⟩
  | outOfBounds hi =>
    cases hr
    exact ⟨nofun, nofun, nofun, fun _ => hi⟩

end commands

/-! ## All that a port answers -/

/-- A word at a port is turned away with IllegalCommand, or performed as its command. -/
theorem perform_some_eq_next {p : Port} {w : Command} {s t : State} (ht : perform p (some w) s = .next t) :
    (∃ e, admission p w = .error e ∧ t = { s with answer := some (failed .illegalCommand) }) ∨
      ∃ i, admission p w = .ok i ∧ exec i s = .next t := by
  cases ha : admission p w with
  | error e =>
    rw [perform_turned_away ha] at ht
    cases ht
    exact .inl ⟨e, rfl, rfl⟩
  | ok i =>
    rw [perform_admitted ha] at ht
    exact .inr ⟨i, rfl, ht⟩

/-- Settles O36: IllegalCommand, InvalidSelector and OutOfBounds are each answered by `failed` over the state as it was. -/
theorem errorsWriteNothing : Obligations.ErrorsWriteNothing := by
  unfold Obligations.ErrorsWriteNothing
  intro p w s t r ht hr hstatus
  rcases perform_some_eq_next ht with ⟨e, -, rfl⟩ | ⟨i, -, he⟩
  · cases hr
    exact ⟨rfl, rfl⟩
  · cases exec_next_outcome he with
    | ok hanswer hok =>
      cases hanswer.symm.trans hr
      exact absurd hok hstatus
    | invalidSelector _ _ | outOfBounds _ =>
      cases hr
      exact ⟨rfl, rfl⟩

/-- Every word that is performed is answered, by IllegalCommand exactly where it is turned away (R203). -/
theorem perform_status {p : Port} {w : Command} {s t : State} (ht : perform p (some w) s = .next t) :
    ∃ r, t.answer = some r ∧ r.status ≠ .ioError ∧ (r.status = .illegalCommand ↔ ∃ why, admission p w = .error why) := by
  rcases perform_some_eq_next ht with ⟨e, ha, rfl⟩ | ⟨i, ha, he⟩
  · exact ⟨_, rfl, nofun, fun _ => ⟨e, ha⟩, fun _ => rfl⟩
  · obtain ⟨r, hr⟩ := exec_answer he
    obtain ⟨hio, hillegal, -⟩ := exec_status he hr
    exact ⟨r, hr, hio, fun h => absurd h hillegal, fun ⟨why, hwhy⟩ => by simp [ha] at hwhy⟩

/-- What a host load is told: that the image fits, or that it does not or could not be read (R57, R205). -/
theorem hostLoad_status (l : HostLoad) : (hostLoad l).2 = .ok ∨ (hostLoad l).2 = .ioError := by
  cases l with
  | load bytes =>
    rcases Nat.lt_or_ge imgMax bytes.length with hlong | hfits
    · exact .inr (congrArg Prod.snd (hostLoad_fails (.inr ⟨bytes, hlong, rfl⟩)))
    · exact .inl (congrArg Prod.snd (hostLoad_fits hfits))
  | loadFail => exact .inr rfl

/-- Settles O35: the numbers are those of R201, and who answers which status is read off what a command, a port and a host load
come to. -/
theorem statusCodesAsNumbered : Obligations.StatusCodesAsNumbered := by
  unfold Obligations.StatusCodesAsNumbered
  exact ⟨rfl, rfl, rfl, rfl, rfl, fun e => by cases e <;> decide, fun _ _ _ _ => exec_status, fun _ _ _ _ => perform_status,
    hostLoad_status⟩

end Sys2Proof.Proofs

/-! PROOF. The ports of one step answer independently (60_exceptions.md R200, R206; 70_reset_and_hazards.md R223). -/

namespace Sys2Proof.Proofs

open Sys2Proof Sys2Proof.Machine

/-- What goes on does so in one way. -/
theorem next_unique {α : Type} {o : Host.Outcome α Fault Refusal} {x y : α} (hx : o = .next x) (hy : o = .next y) : x = y :=
  Host.Outcome.next.inj (hx.symm.trans hy)

/-- Settles O37: each port's part of a step, and the consumer's, is computed from the state at the start and its own input. -/
theorem portsAnswerIndependently : Obligations.PortsAnswerIndependently := by
  unfold Obligations.PortsAnswerIndependently
  intro i j rest rest' s t t' ht ht'
  obtain ⟨-, rp0, rp1, wp, dp, seen, h0, h1, hw, hd, hp, rfl⟩ := (cycle_eq_next i rest s t).mp ht
  obtain ⟨-, rp0', rp1', wp', dp', seen', h0', h1', hw', hd', hp', rfl⟩ := (cycle_eq_next j rest' s t').mp ht'
  refine ⟨fun h => ?_, fun h => ?_, fun h => ?_, fun h => ?_, fun h hhost => ?_, fun h => ?_⟩
  · obtain rfl := next_unique (h ▸ h0) h0'
    rfl
  · obtain rfl := next_unique (h ▸ h1) h1'
    rfl
  · obtain rfl := next_unique (h ▸ hw) hw'
    exact ⟨rfl, rfl⟩
  · obtain rfl := next_unique (h ▸ hd) hd'
    rfl
  · obtain rfl := next_unique (h ▸ hd) hd'
    simp only [conclude, hhost, and_self]
  · exact next_unique (h ▸ hp) hp'

end Sys2Proof.Proofs

/-! PROOF. Steps that keep the duties go on (60_exceptions.md R217; 70_reset_and_hazards.md R221, R228, R230). -/

namespace Sys2Proof.Proofs

open Sys2Proof Sys2Proof.Machine

/-! ## The ports -/

section ports

variable {s : State} (hunit : s.hdu.Inv)

include hunit

/-- A command goes on and answers, where the cells that it may read hold values and the unit meets its invariant. -/
theorem exec_goesOn {i : Instr} (hheld : i.ports = [.rp0, .rp1] → s.rfu.held = Held.all) :
    ∃ t, exec i s = .next t ∧ t.answer.isSome = true := by
  have h := exec_outcome i s
  generalize exec i s = o at h ⊢
  cases h with
  | ok hanswer _ => exact ⟨_, rfl, by rw [hanswer]; rfl⟩
  | invalidSelector _ _ => exact ⟨_, rfl, rfl⟩
  | outOfBounds _ => exact ⟨_, rfl, rfl⟩
  | cellFault hports hempty => exact absurd (hheld hports) hempty
  | imageFault _ hinv => exact absurd hunit hinv

/-- A port goes on whatever it is presented, and answers exactly if it is presented a word. -/
theorem perform_goesOn {p : Port} {w : Option Command}
    (hheld : p = .rp0 ∨ p = .rp1 → w.isSome = true → s.rfu.held = Held.all) :
    ∃ t, perform p w s = .next t ∧ t.answer.isSome = w.isSome := by
  cases w with
  | none => exact ⟨_, rfl, rfl⟩
  | some w =>
    cases ha : admission p w with
    | error e => exact ⟨_, perform_turned_away ha s, rfl⟩
    | ok i =>
      obtain ⟨-, hp⟩ := (admission_ok p w i).mp ha
      rw [perform_admitted ha]
      exact exec_goesOn hunit fun hports => hheld (by simpa [hports] using hp) rfl

end ports

/-! ## The consumer -/

section consumer

variable {u : HeaderUnit} (hu : u.Inv)

include hu

/-- A line of the record goes on while HDR_VALID = 1: the latch then holds a record (R30). -/
theorem fromRecord_goesOn (hvalid : u.hdrValid = true) (g : HeaderRecord → ProbeValue) : ∃ v, fromRecord u g = .next v := by
  obtain ⟨h, hh⟩ := Option.isSome_iff_exists.mp (hu.latch ▸ hvalid)
  exact ⟨_, fromRecord_latched hvalid hh g⟩

/-- A line that holds a value is read (R28, R33). -/
theorem probe_goesOn {p : Probe} (hp : readableLine u p = true) : ∃ v, probe u p = .next v := by
  cases p with
  | imgValid | imgLen | hdrValid => exact ⟨_, rfl⟩
  | imageByte k =>
    have hin : u.imgValid = true ∧ k < u.imgLen := by simpa [readableLine] using hp
    obtain ⟨b, hb⟩ := read_below_imgLen hu hin.2
    exact ⟨.byte b, by simp [probe, imageByte, hin, hb]⟩
  | entryPoint | logo | title | modernVendorCode | sgbFlag | cartType | romSizeCode | ramSizeCode | destinationCode
  | legacyVendorCode | version | headerChecksum | globalChecksum | vendorView | cartView | romView | ramView | titleView =>
    exact fromRecord_goesOn hu hp _

/-- Lines that hold values are all read, one value for each. -/
theorem probeAll_goesOn {ps : List Probe} (hps : ∀ p ∈ ps, readableLine u p = true) :
    ∃ vs, probeAll u ps = .next vs ∧ vs.length = ps.length := by
  induction ps with
  | nil => exact ⟨[], rfl, rfl⟩
  | cons p ps ih =>
    rw [List.forall_mem_cons] at hps
    obtain ⟨v, hv⟩ := probe_goesOn hu hps.1
    obtain ⟨vs, hvs, hlen⟩ := ih hps.2
    exact ⟨v :: vs, by simp [probeAll, hv, hvs], by simp [hlen]⟩

end consumer

/-! ## The step -/

/-- The duties of one step, taken apart (R221, R228). -/
theorem duties_iff (i : StepInput) (s : State) :
    duties i s = true ↔ i.wellFormed = true ∧ ((i.rp0 = none ∧ i.rp1 = none) ∨ s.rfu.held = Held.all) ∧
      ∀ p ∈ i.probes, readableLine s.hdu p = true := by
  simp [duties, RegFile.initialised, and_assoc]

/-- Settles O52: each port, and the consumer, goes on by itself, and the step is made of their parts. -/
theorem dutifulStepCompletes : Obligations.DutifulStepCompletes := by
  unfold Obligations.DutifulStepCompletes
  intro s hs hduties
  obtain ⟨hwf, hreads, hlines⟩ := (duties_iff _ s).mp hduties
  rw [step_eq]
  generalize s.driver.headD StepInput.idle = i at *
  have hheld0 : i.rp0.isSome = true → s.rfu.held = Held.all := fun h => hreads.resolve_left fun hn => by simp [hn.1] at h
  have hheld1 : i.rp1.isSome = true → s.rfu.held = Held.all := fun h => hreads.resolve_left fun hn => by simp [hn.2] at h
  obtain ⟨rp0, h0, hans0⟩ := perform_goesOn hs.unit (p := .rp0) fun _ => hheld0
  obtain ⟨rp1, h1, hans1⟩ := perform_goesOn hs.unit (p := .rp1) fun _ => hheld1
  obtain ⟨wp, hw, hansw⟩ := perform_goesOn hs.unit (p := .wp) (w := i.wp) nofun
  obtain ⟨dp, hd, hansd⟩ := perform_goesOn hs.unit (p := .dp) (w := i.dp) nofun
  obtain ⟨seen, hseen, hlen⟩ := probeAll_goesOn hs.unit hlines
  refine ⟨_, (cycle_eq_next _ _ s _).mpr ⟨hwf, rp0, rp1, wp, dp, seen, h0, h1, hw, hd, hseen, rfl⟩, rfl, ?_, ?_, ?_, hansd, ?_,
    hlen⟩
  · exact Option.isSome_map.trans hans0
  · exact Option.isSome_map.trans hans1
  · exact Option.isSome_map.trans hansw
  · exact Option.isSome_map

/-! ## The run -/

/-- A run goes on for any number of steps from a state with a property from which every step goes on and keeps it. -/
theorem run_goesOn {Keeps : State → Prop} (hstep : ∀ s, Keeps s → ∃ t, step s = .next t ∧ Keeps t) (k : Nat) {s : State}
    (hs : Keeps s) : ∃ t, Host.Core.run core k s = .next t := by
  induction k generalizing s with
  | zero => exact ⟨s, rfl⟩
  | succ k ih =>
    obtain ⟨t, ht, hkeep⟩ := hstep s hs
    obtain ⟨u, hu⟩ := ih hkeep
    exact ⟨u, by simpa [Host.Core.run, core, ht] using hu⟩

/-- The states that a run from reset passes while the driver keeps to its part: every cell holds a value, no step to come has a
host load beside a decoder command, and the consumer reads nothing. -/
structure WellDriven (s : State) : Prop where
  inv : s.Inv
  cells : s.rfu.initialised = true
  inputs : ∀ i ∈ s.driver, i.wellFormed = true ∧ i.probes = []

theorem reset_wellDriven {inputs : List StepInput} (h : ∀ i ∈ inputs, i.wellFormed = true ∧ i.probes = []) :
    WellDriven (State.reset.withDriver inputs) := by
  obtain ⟨⟨hregs, hunit, hbetween⟩, -, -, hcells⟩ := startStatesMeetTheInvariant
  exact ⟨⟨hregs, hunit, hbetween⟩, hcells, h⟩

theorem WellDriven.dutiful {s : State} (hs : WellDriven s) : s.dutiful = true := by
  obtain ⟨hwf, hprobes⟩ : (s.driver.headD StepInput.idle).wellFormed = true ∧ (s.driver.headD StepInput.idle).probes = [] := by
    cases hd : s.driver with
    | nil => exact ⟨rfl, rfl⟩
    | cons i rest => exact hs.inputs i (by simp [hd])
  exact (duties_iff _ s).mpr ⟨hwf, .inr ((initialised_iff _).mp hs.cells), hprobes ▸ List.forall_mem_nil _⟩

/-- A well-driven state goes on to a well-driven one. -/
theorem WellDriven.step {s : State} (hs : WellDriven s) : ∃ t, Machine.step s = .next t ∧ WellDriven t := by
  obtain ⟨t, ht, hdriver, -⟩ := dutifulStepCompletes s hs.inv hs.dutiful
  exact ⟨t, ht, stepKeepsTheInvariant s t hs.inv ht, stepKeepsEveryCellHeld s t hs.cells ht,
    fun i hi => hs.inputs i (List.mem_of_mem_tail (hdriver ▸ hi))⟩

/-- Settles O53: the state at reset is well driven, and so every step from it goes on. -/
theorem runsFromResetNeverStop : Obligations.RunsFromResetNeverStop := by
  unfold Obligations.RunsFromResetNeverStop
  intro inputs k h
  have hreset := reset_wellDriven h
  exact ⟨hreset.inv, run_goesOn (fun _ => WellDriven.step) k hreset⟩

end Sys2Proof.Proofs

/-! PROOF. A step as one command alone, and as its ports one after another (30_encoding.md R82; 70_reset_and_hazards.md R223,
R226, R230). -/

namespace Sys2Proof.Proofs

open Sys2Proof Sys2Proof.Machine Sys2Proof.Claims

/-! ## One command alone -/

/-- Settles O38: the port performs the command, and the others, the host and the consumer are idle. -/
theorem stepRunsTheDecodedCommand : Obligations.StepRunsTheDecodedCommand := by
  unfold Obligations.StepRunsTheDecodedCommand
  intro s rest p w i hpresents hdecode hport
  have hp : p ∈ i.ports := by simpa [Instr.wellFormedAt] using hport
  have hperform : perform p (some w) s = exec i s := perform_admitted ((admission_ok p w i).mpr ⟨hdecode, hp⟩) s
  have hdriver : s.driver = presentAlone p w :: rest := hpresents
  rw [step_eq, hdriver, ← hperform]
  cases p <;> rfl

/-! ## A port on another state whose unit is the same -/

section transfer

variable {w : Option Command} {s a t : State}

/-- A read port answers alike from the same register file, and changes the answer alone. -/
theorem perform_read_transfer {p : Port} (hp : p = .rp0 ∨ p = .rp1) (h : perform p w s = .next a) (hrfu : t.rfu = s.rfu) :
    perform p w t = .next (t.withAnswer a.answer) := by
  obtain ⟨o, ho⟩ := perform_read p hp w s.rfu
  rw [ho s rfl] at h
  rw [ho t hrfu]
  cases o with
  | ok r => cases h; rfl
  | error e => cases h

/-- The write port leaves and answers alike from the same register file, and keeps the header decoder unit. -/
theorem perform_write_transfer (h : perform .wp w s = .next a) (hrfu : t.rfu = s.rfu) :
    perform .wp w t = .next ((t.withRfu a.rfu).withAnswer a.answer) := by
  obtain ⟨y, r, -, ho⟩ := perform_write w s.rfu
  rw [ho s rfl] at h
  rw [ho t hrfu]
  cases h
  rfl

/-- The decoder port leaves and answers alike from the same header decoder unit, and keeps the register file. -/
theorem perform_decoder_transfer (h : perform .dp w s = .next a) (hhdu : t.hdu = s.hdu) :
    perform .dp w t = .next ((t.withHdu a.hdu).withAnswer a.answer) := by
  obtain ⟨o, -, ho⟩ := perform_decoder w s.hdu
  rw [ho s rfl] at h
  rw [ho t hhdu]
  cases o with
  | ok yr => cases h; rfl
  | error e => cases h

end transfer

/-! ## The host load in a step -/

section host

variable {i : StepInput} {rest : List StepInput} {rp0 rp1 wp dp : State} {seen : List ProbeValue}

theorem conclude_hdu_of_noHost (h : i.host = none) : (conclude i rest rp0 rp1 wp dp seen).hdu = dp.hdu := by
  simp [conclude, h]

theorem conclude_hdu_of_host {l : HostLoad} (h : i.host = some l) :
    (conclude i rest rp0 rp1 wp dp seen).hdu = (hostLoad l).1 := by
  simp [conclude, h]

theorem conclude_hostStatus {l : HostLoad} (h : i.host = some l) :
    (conclude i rest rp0 rp1 wp dp seen).out.host = some (hostLoad l).2 := by
  simp [conclude, h]

/-- A step with a host load is a step of the block exactly if its decoder port is idle (R228). -/
theorem wellFormed_iff_of_host {l : HostLoad} (h : i.host = some l) : i.wellFormed = true ↔ i.dp = none := by
  simp [StepInput.wellFormed, h]

end host

/-- Settles O40: a read port leaves both units, and WP the unit that DP works on, so each port finds after the ones before it what
it finds at the start. -/
theorem stepEqualsPortsInSequence : Obligations.StepEqualsPortsInSequence := by
  unfold Obligations.StepEqualsPortsInSequence
  intro i rest s t h
  obtain ⟨hwf, rp0, rp1, wp, dp, seen, h0, h1, hw, hd, -, rfl⟩ := (cycle_eq_next i rest s t).mp h
  refine ⟨_, _, _, _, perform_read_transfer (.inl rfl) h0 rfl, perform_read_transfer (.inr rfl) h1 rfl,
    perform_write_transfer hw rfl, perform_decoder_transfer hd rfl, rfl, conclude_hdu_of_noHost, fun l hl => ?_, rfl, rfl, rfl,
    rfl⟩
  have hkeep : dp.hdu = s.hdu := by
    rw [(wellFormed_iff_of_host hl).mp hwf] at hd
    cases hd
    rfl
  exact ⟨conclude_hdu_of_host hl, conclude_hostStatus hl, hkeep⟩

end Sys2Proof.Proofs

/-! PROOF. Reads and writes over two steps (70_reset_and_hazards.md R224, R225). -/

namespace Sys2Proof.Proofs

open Sys2Proof Sys2Proof.Machine Sys2Proof.Claims

section hazards

variable {s : State} {rest : List StepInput}

/-- A step that presents one read command at both read ports beside a write command: the reads answer from the start, and the
register file is the one that the write leaves (R223). -/
theorem step_read_both_beside_write {i j : Instr} (hi : i.ports = [.rp0, .rp1]) (hj : j.ports = [.wp]) {r : Response}
    {x : RegFile} (hr : Answers i s r) (hx : Leaves j s x)
    (hd : s.driver = { rp0 := some (encode i), rp1 := some (encode i), wp := some (encode j) } :: rest) :
    ∃ t, step s = .next t ∧ t.out.rp0 = some (readPart r) ∧ t.out.rp1 = some (readPart r) ∧ t.out.wp = some .ok ∧
      t.rfu = x ∧ t.driver = rest := by
  have hrp0 : perform .rp0 (some (encode i)) s = .next { s with answer := some r } :=
    (perform_encode (by simp [hi]) s).trans hr
  have hrp1 := (perform_rp0_eq_rp1 (some (encode i)) s).symm.trans hrp0
  have hwp : perform .wp (some (encode j)) s = .next { s with rfu := x, answer := some done } :=
    (perform_encode (by simp [hj]) s).trans hx
  rw [step_eq, hd]
  exact ⟨_, (cycle_eq_next _ rest s _).mpr ⟨rfl, _, _, _, _, _, hrp0, hrp1, hwp, rfl, rfl, rfl⟩, rfl, rfl, rfl, rfl, rfl⟩

/-- A step that presents a read command at RP0 alone answers it there. -/
theorem step_read_rp0 {i : Instr} (hi : i.ports = [.rp0, .rp1]) {r : Response} (hr : Answers i s r)
    (hd : s.driver = { rp0 := some (encode i) } :: rest) : ∃ t, step s = .next t ∧ t.out.rp0 = some (readPart r) := by
  rw [stepRunsTheDecodedCommand s rest .rp0 (encode i) i hd (decode_encode i) (by simp [Instr.wellFormedAt, hi]), hr]
  exact ⟨_, rfl, rfl⟩

end hazards

/-- Settles O41: the first step's reads answer from its start, and the next step's read from the pair that the write left. -/
theorem readsSeeTheStartOfTheirStep : Obligations.ReadsSeeTheStartOfTheirStep := by
  unfold Obligations.ReadsSeeTheStartOfTheirStep
  refine ⟨fun i rest s t => cycle_readsTheStart, fun s p v old rest hp hold hd => ?_⟩
  obtain ⟨P, hP⟩ := pairOf_of_lt hp
  obtain ⟨t, ht, h0, h1, hw, hrfu, htd⟩ := step_read_both_beside_write rfl rfl hold (setpair_leaves hP v) hd
  have hnew : Answers (.getpair p) t (answered v) := getpair_answers hP (hrfu ▸ readPair_writePair_same s.rfu P v)
  obtain ⟨u, hu, hu0⟩ := step_read_rp0 rfl hnew htd
  exact ⟨t, u, ht, h0, h1, hw, hu, hu0⟩

/-- Settles O42: the second SETFLAG writes its bit of the `f` that the first left. -/
theorem setflagsAccumulateOverSteps : Obligations.SetflagsAccumulateOverSteps := by
  unfold Obligations.SetflagsAccumulateOverSteps
  intro s j k b c rest hj hk hd
  obtain ⟨J, hJ⟩ := flagNamed_of_lt hj
  obtain ⟨K, hK⟩ := flagNamed_of_lt hk
  obtain ⟨t, ht, htrfu, htd⟩ := step_write_alone rfl (setflag_leaves hJ b) hd
  obtain ⟨u, hu, hurfu, -⟩ := step_write_alone rfl (setflag_leaves hK c) htd
  refine ⟨u, by simp [Host.Core.run, core, ht, hu], fun n hn => ?_⟩
  have hf : u.rfu.f = withFlag (withFlag s.rfu.f J b) K c := by rw [hurfu, htrfu]; rfl
  rw [hf, getLsbD_withFlag _ K c hn, getLsbD_withFlag _ J b hn, flagBit_of_named hJ, flagBit_of_named hK]

end Sys2Proof.Proofs

/-! PROOF. Steps with a host load or a RESET (20_memory.md R58; 70_reset_and_hazards.md R222, R228). -/

namespace Sys2Proof.Proofs

open Sys2Proof Sys2Proof.Machine Sys2Proof.Claims

/-- Settles O45: a word on DP makes the step ill-formed; with DP idle only the read ports could stop it. -/
theorem hostLoadExcludesTheDecoderPort : Obligations.HostLoadExcludesTheDecoderPort := by
  unfold Obligations.HostLoadExcludesTheDecoderPort
  intro s i rest l hd hl
  rw [step_eq, hd]
  refine ⟨fun w hw => ?_, fun hdp hprobes ⟨a, ha⟩ ⟨b, hb⟩ => ?_⟩
  · exact if_neg fun hwf => by simp [(wellFormed_iff_of_host hl).mp hwf] at hw
  · obtain ⟨y, r, -, hwrite⟩ := perform_write i.wp s.rfu
    have hidle : perform .dp i.dp s = .next (s.withAnswer none) := by rw [hdp]; rfl
    have hseen : probeAll s.hdu i.probes = .next [] := by rw [hprobes]; rfl
    have hwf : i.wellFormed = true := (wellFormed_iff_of_host hl).mpr hdp
    exact ⟨_, (cycle_eq_next i rest s _).mpr ⟨hwf, a, b, _, _, _, ha, hb, hwrite s rfl, hidle, hseen, rfl⟩,
      conclude_hdu_of_host hl, conclude_hostStatus hl⟩

/-- A host load clears HDR_VALID whatever its outcome (R30, R57). -/
@[simp] theorem hostLoad_hdrValid (l : HostLoad) : (hostLoad l).1.hdrValid = false := by
  cases l with
  | load bytes =>
    rcases Nat.lt_or_ge imgMax bytes.length with hlong | hfits
    · rw [hostLoad_fails (.inr ⟨bytes, hlong, rfl⟩)]
      rfl
    · rw [hostLoad_fits hfits]
  | loadFail => rfl

/-- Settles O46: RESET and a load alone go on from every state, and a step that goes on with a load leaves the load's unit. -/
theorem resetAndLoadMayComeAgain : Obligations.ResetAndLoadMayComeAgain := by
  unfold Obligations.ResetAndLoadMayComeAgain
  refine ⟨fun s rest h => ?_, fun s rest l h => ?_, fun s t i rest l hd hl h => ?_⟩
  · obtain ⟨hword, -⟩ := specWordsDecodeAsWritten
    rw [stepRunsTheDecodedCommand s rest .wp _ .reset h hword rfl, reset_leaves s]
    exact ⟨_, rfl, rfl, rfl, rfl⟩
  · exact ⟨_, step_hostLoad_alone h, rfl, hostLoad_hdrValid l⟩
  · rw [step_eq, hd] at h
    obtain ⟨-, rp0, rp1, wp, dp, seen, -, -, -, -, -, rfl⟩ := (cycle_eq_next i rest s t).mp h
    rw [conclude_hdu_of_host hl, hostLoad_hdrValid]

end Sys2Proof.Proofs
